-- ==== Sys2Proof/Word.lean ====
section
/-! DEFINITION. The words and value types of the Coefficient Codec (spec/10_state.md R26, spec/30_encoding.md R47, R50 to R54):
port widths, the encoded form of each coefficient kind, the sum type an encode operation ends in, and the exact positive dyadic
rationals the formulas compute over (spec/00_scope.md R9). -/

namespace Sys2Proof

/-- A real coefficient value at a port: an IEEE 754 binary64 pattern (R15, R26). -/
abbrev Real64 := BitVec 64

/-- A request word `REQ[66:0]`: `op` in bits 66:64, `opnd` in bits 63:0 (R47). -/
abbrev Request := BitVec 67

/-- A packed encoded form `code[28:0]` (R50 to R52). -/
abbrev CodeWord := BitVec 29

/-- A response word `RSP[64:0]`: `invalid` in bit 64, `data` in bits 63:0 (R54). -/
abbrev RspWord := BitVec 65

/-- One byte of the register transport (R31). -/
abbrev Byte := BitVec 8

/-- A 16-bit address of the register transport (R31). -/
abbrev Addr := BitVec 16

/-- The four coefficient kinds; there is no fifth (R2). -/
inductive CoefKind where
  | alpha | beta | gamma | delta
deriving DecidableEq, Repr

/-- Encoded alpha: mantissa `a0` and the exponent fields `a1`, `a2`, `a3` (R5, R26). -/
structure AlphaCode where
  a0 : BitVec 16
  a1 : BitVec 6
  a2 : BitVec 3
  a3 : BitVec 4
deriving DecidableEq, Repr

/-- Encoded beta: mantissa `b0`, exponent `b1` (R5, R26). -/
structure BetaCode where
  b0 : BitVec 17
  b1 : BitVec 5
deriving DecidableEq, Repr

/-- Encoded gamma: the shape of beta under its own field names (R26, D19). -/
structure GammaCode where
  g0 : BitVec 17
  g1 : BitVec 5
deriving DecidableEq, Repr

/-- Encoded delta: mantissa `d0`, exponent `d1` (R5, R26). -/
structure DeltaCode where
  d0 : BitVec 15
  d1 : BitVec 5
deriving DecidableEq, Repr

/-- An encoded form of any kind, tagged with its kind so that a form of one kind is never taken for another (R26, D19). -/
inductive Code where
  | alpha (c : AlphaCode)
  | beta (c : BetaCode)
  | gamma (c : GammaCode)
  | delta (c : DeltaCode)
deriving DecidableEq, Repr

/-- The kind of an encoded form. -/
def Code.kind : Code → CoefKind
  | .alpha _ => .alpha
  | .beta _ => .beta
  | .gamma _ => .gamma
  | .delta _ => .delta

/-- How an encode operation ends: a result, or the bare `InvalidInput`, which carries nothing (R17, R26 `Outcome(T)`). -/
inductive OpOutcome (α : Type) where
  | ok (t : α)
  | invalidInput
deriving DecidableEq, Repr

/-- The outcome of computing further with a result that was returned. -/
def OpOutcome.map {α β : Type} (f : α → β) : OpOutcome α → OpOutcome β
  | .ok t => .ok (f t)
  | .invalidInput => .invalidInput

/-- The classes of binary64 patterns (R15). -/
inductive FloatClass where
  | nan | inf | zero | subnormal | normal
deriving DecidableEq, Repr

/-- The exact non-negative rational `sig * 2^exp` (R9: every value of a rule is an integer times a power of two). -/
structure Dyad where
  sig : Nat
  exp : Int
deriving DecidableEq, Repr

end Sys2Proof
end

