-- ==== Sys2Proof/Config.lean ====
section
/-! DEFINITION. What the spec leaves to the implementation: the shape of the record of numeric constants (spec/00_scope.md R6, D22) and
parameters (R7), and the free values, which have no body so that nothing can rest on a value of them. The record's values stand in
Sys2Proof/Machine/Params.lean. -/

namespace Sys2Proof

/-- `TIE`: how `rnd` breaks an exact half (R7, R13, D5). -/
inductive Tie where
  | even | away
deriving DecidableEq, Repr

/-- `BETA_SIGN`: what the device takes an encoded beta or gamma to mean (R7, D13, U2). -/
inductive BetaSign where
  | magnitude | negated
deriving DecidableEq, Repr, Inhabited

/-- The numeric constants of the formulas, one field per name of R6, and the parameters of R7 that a rule uses. -/
structure Config where
  alphaBias : Int
  a0Max : Int
  a1Max : Int
  yMax : Int
  a2Max : Int
  ySplit : Int
  betaBias : Int
  b0Max : Int
  b1Max : Int
  deltaBias : Int
  d0Max : Int
  d1Max : Int
  mMin : Int
  tie : Tie
  invalidCode : Nat
deriving DecidableEq, Repr

/-- `BETA_SIGN` is OPEN and no rule uses it (R7, D13): a constant nothing is known of. DESIGN CHOICE, safe (log 9). -/
opaque Config.betaSign : BetaSign

/-- `REG_LAYOUT` is OPEN and no rule uses it (R7, R33, D14): the transport address and the bit position there at which bit `i` of
a kind's code word is kept for a profile number. DESIGN CHOICE, safe (log 9). -/
opaque Config.regLayout (profile : Fin 8) (kind : CoefKind) (i : Fin 29) : Addr × Fin 8

/-- FREE VALUE: whether the `n`-th free read before a commit shows the written byte rather than the applied one; U6 allows "any value of
the two". DESIGN CHOICE, safe (log 5). -/
opaque Config.readsReceived (n : Nat) : Bool

/-- FREE VALUE: the byte that the `n`-th read of a register shows as applied when no commit ever wrote it (N12). DESIGN CHOICE,
safe (log 5). -/
opaque Config.unwrittenByte (n : Nat) : Byte

end Sys2Proof
end

