-- ==== Sys2Proof/Syntax.lean ====
section
/-! DEFINITION. The eight operations of the codec (spec/30_encoding.md R48), one constructor per row of spec/opcode_table.json, over the
typed operands of spec/10_state.md R26. -/

namespace Sys2Proof

/-- An operation with its operand. The operand of an encode operation is a binary64 pattern (R49); that of a decode operation is the
encoded form of its kind (R50 to R52). -/
inductive Instr where
  | encAlpha (x : Real64)
  | encBeta (x : Real64)
  | encGamma (x : Real64)
  | encDelta (x : Real64)
  | decAlpha (c : AlphaCode)
  | decBeta (c : BetaCode)
  | decGamma (c : GammaCode)
  | decDelta (c : DeltaCode)
deriving DecidableEq, Repr

/-- The encode operation of a kind. -/
def CoefKind.encodeInstr (x : Real64) : CoefKind → Instr
  | .alpha => .encAlpha x
  | .beta => .encBeta x
  | .gamma => .encGamma x
  | .delta => .encDelta x

/-- The decode operation for an encoded form, of the form's own kind. -/
def Code.decodeInstr : Code → Instr
  | .alpha c => .decAlpha c
  | .beta c => .decBeta c
  | .gamma c => .decGamma c
  | .delta c => .decDelta c

end Sys2Proof
end

