-- ==== Sys2Proof/Decode.lean ====
section
/-! DEFINITION. Reading and writing the words of the interface: code words (spec/30_encoding.md R50 to R52), request words (R47, R48) read
by a decoder that is total on any 67 bits (R55), and the encoder (R58). -/

namespace Sys2Proof

/-- `code = {a3, a2, a1, a0}` (R50). -/
def AlphaCode.pack (c : AlphaCode) : CodeWord := c.a3 ++ c.a2 ++ c.a1 ++ c.a0

/-- The fields of a code word of kind alpha (R50). -/
def AlphaCode.unpack (w : CodeWord) : AlphaCode where
  a0 := w.extractLsb' 0 16
  a1 := w.extractLsb' 16 6
  a2 := w.extractLsb' 22 3
  a3 := w.extractLsb' 25 4

/-- `code = {0[6:0], b1, b0}` (R51). -/
def BetaCode.pack (c : BetaCode) : CodeWord := 0#7 ++ c.b1 ++ c.b0

/-- The fields of a code word of kind beta; bits 28:22 are ignored (R51, R53). -/
def BetaCode.unpack (w : CodeWord) : BetaCode where
  b0 := w.extractLsb' 0 17
  b1 := w.extractLsb' 17 5

/-- `code = {0[6:0], g1, g0}` (R51). -/
def GammaCode.pack (c : GammaCode) : CodeWord := 0#7 ++ c.g1 ++ c.g0

/-- The fields of a code word of kind gamma; bits 28:22 are ignored (R51, R53). -/
def GammaCode.unpack (w : CodeWord) : GammaCode where
  g0 := w.extractLsb' 0 17
  g1 := w.extractLsb' 17 5

/-- `code = {0[8:0], d1, d0}` (R52). -/
def DeltaCode.pack (c : DeltaCode) : CodeWord := 0#9 ++ c.d1 ++ c.d0

/-- The fields of a code word of kind delta; bits 28:20 are ignored (R52, R53). -/
def DeltaCode.unpack (w : CodeWord) : DeltaCode where
  d0 := w.extractLsb' 0 15
  d1 := w.extractLsb' 15 5

/-- The code word of an encoded form of any kind, its unused bits 0 (R50 to R53). -/
def Code.pack : Code → CodeWord
  | .alpha c => c.pack
  | .beta c => c.pack
  | .gamma c => c.pack
  | .delta c => c.pack

/-- The encoded form of a kind that a code word holds. -/
def Code.unpack (w : CodeWord) : CoefKind → Code
  | .alpha => .alpha (AlphaCode.unpack w)
  | .beta => .beta (BetaCode.unpack w)
  | .gamma => .gamma (GammaCode.unpack w)
  | .delta => .delta (DeltaCode.unpack w)

/-- The kind a request word selects: `kind = op[1:0]` (R48). -/
def CoefKind.ofBits (b : BitVec 2) : CoefKind :=
  if b = 0#2 then .alpha else if b = 1#2 then .beta else if b = 2#2 then .gamma else .delta

/-- The operation a request word asks for: `op[2]` selects the unit, `op[1:0]` the kind, `opnd` is `x` of an encode request and
`opnd[28:0]` the code word of a decode request, whose other bits are ignored (R47, R48, R53). Total on any 67 bits (R55). -/
def decode (req : Request) : Instr :=
  let kind := CoefKind.ofBits (req.extractLsb' 64 2)
  if req.getLsbD 66 then (Code.unpack (req.extractLsb' 0 29) kind).decodeInstr
  else kind.encodeInstr (req.extractLsb' 0 64)

/-- Why a number is not a request word. -/
inductive DecodeError where
  /-- A bit above bit 66 is set: every request is 67 bits (R56). -/
  | widerThanRequest
deriving DecidableEq, Repr

/-- A request given as a number of any size: its operation, or by name why it is no request word (R56). -/
def decodeNumber (w : Nat) : Except DecodeError Instr :=
  if w < 2 ^ 67 then .ok (decode (BitVec.ofNat 67 w)) else .error .widerThanRequest

/-- The operation the decoder reads from an opcode-table row's bits. A request is one whole 67-bit word with no byte order (R35, R47), so
the row's numbering is the word's own and `nbits` adds nothing (log 11). -/
def decodeTableWord (_nbits w : Nat) : Option Instr :=
  match decodeNumber w with
  | .ok i => some i
  | .error _ => none

/-- The `op` field of an operation (R48). -/
def Instr.op : Instr → BitVec 3
  | .encAlpha _ => 0b000#3
  | .encBeta _ => 0b001#3
  | .encGamma _ => 0b010#3
  | .encDelta _ => 0b011#3
  | .decAlpha _ => 0b100#3
  | .decBeta _ => 0b101#3
  | .decGamma _ => 0b110#3
  | .decDelta _ => 0b111#3

/-- The `opnd` field of an operation: `x`, or `zext_64(code)` (R47, R58). -/
def Instr.opnd : Instr → BitVec 64
  | .encAlpha x => x
  | .encBeta x => x
  | .encGamma x => x
  | .encDelta x => x
  | .decAlpha c => c.pack.setWidth 64
  | .decBeta c => c.pack.setWidth 64
  | .decGamma c => c.pack.setWidth 64
  | .decDelta c => c.pack.setWidth 64

/-- The request word of an operation, `{op, opnd}` (R47, R58). -/
def encode (i : Instr) : Request := i.op ++ i.opnd

/-- The bits of `opnd` that an operation with this `op` reads; it ignores the others (R53). -/
def usedOperandBits (op : BitVec 3) : BitVec 64 :=
  if op.getLsbD 2 = false then BitVec.allOnes 64
  else if op = 0b100#3 then 0x1FFFFFFF#64
  else if op = 0b111#3 then 0xFFFFF#64
  else 0x3FFFFF#64

end Sys2Proof
end

