-- ==== Sys2Proof/Machine/Params.lean ====
section
/-! DEFINITION. The values of the numeric constants (spec/00_scope.md R6) and of the parameters that have a default (R7). -/

namespace Sys2Proof.Machine

/-- The constants of R6 and the defaults of R7. `REAL_FMT`, `LOG_EXACT`, `OP_CODES` and `CODE_LAYOUT` are in the definitions
themselves (log 4). -/
def params : Config where
  alphaBias := 16
  a0Max := 65535
  a1Max := 63
  yMax := 22
  a2Max := 7
  ySplit := 8
  betaBias := 17
  b0Max := 131071
  b1Max := 31
  deltaBias := 15
  d0Max := 32767
  d1Max := 31
  mMin := 1
  tie := .even
  invalidCode := 1

end Sys2Proof.Machine
end

