-- ==== Sys2Proof/Program.lean ====
section
/-! DEFINITION. Host programs: the finite list of things the host does one after another (spec/30_encoding.md R57, spec/95_test_vectors.md
Part 6, spec/20_memory.md R31, R32). They are the block's input, not a stored program (spec/10_state.md R22). -/

namespace Sys2Proof

/-- One line of a host program. A name is the position of an earlier result among all results so far, counted from 0 (log 8). -/
inductive HostAction where
  /-- Present a request word at the ports (R47). -/
  | request (req : Request)
  /-- `ENC.<KIND> dst, src` where `src` names an earlier `DEC` result (R57). -/
  | encodeResult (k : CoefKind) (name : Nat)
  /-- `DEC.<KIND> dst, src` where `src` names an earlier `ENC` outcome (R57). -/
  | decodeResult (k : CoefKind) (name : Nat)
  /-- `WriteByte(addr16, byte)` of the register transport (R31). -/
  | writeByte (a : Addr) (b : Byte)
  /-- `ReadByte(addr16)` of the register transport (R31). -/
  | readByte (a : Addr)
  /-- `IoUpdate()`, the commit of the register transport (R32). -/
  | ioUpdate
deriving DecidableEq, Repr

/-- What a name of a host program stands for: the outcome of an encode operation of a kind, or a real value. -/
inductive ResultType where
  | code (k : CoefKind)
  | real
deriving DecidableEq, Repr

end Sys2Proof
end

