-- ==== Sys2Proof/Machine/State.lean ====
section
/-! DEFINITION. The state of the model. The block itself has none (spec/10_state.md R20 to R29): no register, program counter, flag, control
register, memory or hidden state, so no field stands for one. What is held is what the spec puts around the block: the host's program and
variables (spec/30_encoding.md R57) and the register transport (spec/20_memory.md R31, R32). See log 1. -/

namespace Sys2Proof.Machine

/-- The response to one request (R54): of an encode operation an encoded form or the bare `InvalidInput`, which records nothing (R102);
of a decode operation a real value. -/
inductive Response where
  | encoded (c : Code)
  | invalidInput
  | decoded (y : Real64)
deriving DecidableEq, Repr

/-- Transport bytes by address, addresses strictly rising; an address with no entry has no byte known of it (log 5). -/
abbrev Memory := List Host.Cell

/-- The register transport and the device behind it (R31, R32): outside the block. -/
structure Transport where
  /-- Bytes received by `WriteByte` since the last `IoUpdate` (R32). -/
  received : Memory
  /-- Bytes that an `IoUpdate` has made effective (R32). -/
  applied : Memory
deriving DecidableEq, Repr

/-- The host, its variables and the transport; the block has no state of its own (R20). -/
structure State where
  /-- What the host has still to do, next line first (R22, R57). -/
  pending : List HostAction
  /-- The host's variables: the responses to its requests, oldest first (R54, R57). -/
  outcomes : List Response
  /-- What the host's `ReadByte` calls returned, oldest first (R31). -/
  reads : List Byte
  /-- The register transport (R31, R32). -/
  transport : Transport
  /-- The model's own counter of free values taken (log 5). -/
  freeIndex : Nat
deriving DecidableEq, Repr

/-- Why a host program stops. The spec calls such a program ill-formed at that line (R57); no operation of the block raises any of
these (R55, R85, R100). All are safe: the model stops where the spec gives nothing to do (log 8). -/
inductive Fault where
  /-- Raised by a `DEC` line that names an `ENC` outcome that is `InvalidInput`: the host has nothing to pass (R57, R107). Safe. -/
  | nothingToPass
  /-- Raised by a line that names a result there is none of yet (R57: an earlier result). Safe. -/
  | unknownName
  /-- Raised by a line that names a result of another type than it needs (R26, R57, D19). Safe. -/
  | wrongType
deriving DecidableEq, Repr

/-- Why an operation has no meaning. -/
inductive Refusal where
  /-- Raised by an arm of `exec` with no meaning yet; no arm is left so. Safe. -/
  | notModelled (mnemonic : String)
deriving DecidableEq, Repr

/-- Right after reset: the block has nothing to reset (R29, R115); the host has issued nothing and the transport has received nothing
(DESIGN CHOICE, log 2). -/
def State.reset : State where
  pending := []
  outcomes := []
  reads := []
  transport := { received := [], applied := [] }
  freeIndex := 0

end Sys2Proof.Machine
end

