-- ==== Sys2Proof/Machine/Flags.lean ====
section
/-! DEFINITION. Status indication and response word. The block has no flags (spec/10_state.md R23); its only status indication is the
`invalid` bit of a response, an output and not state. The response word is spec/30_encoding.md R54. -/

namespace Sys2Proof.Machine

/-- `invalid`, bit 64 of the response word (R54): set exactly by `InvalidInput`. -/
def Response.invalid : Response → Bool
  | .encoded _ => false
  | .invalidInput => true
  | .decoded _ => false

/-- `data[63:0]`: the code word with zeros above it, zero on `InvalidInput`, or `y` (R53, R54). -/
def Response.data : Response → BitVec 64
  | .encoded c => c.pack.setWidth 64
  | .invalidInput => 0#64
  | .decoded y => y

/-- `RSP[64:0] = {invalid, data}` (R54). -/
def Response.word (r : Response) : RspWord := BitVec.ofBool r.invalid ++ r.data

/-- The cause number of a failed request (R100): `INVALID_CODE`, which never shows on the ports. -/
def Response.cause : Response → Option Nat
  | .encoded _ => none
  | .invalidInput => some params.invalidCode
  | .decoded _ => none

/-- Whether a response is a result of the type a name of a host program stands for (R57). -/
def Response.hasType : Response → ResultType → Bool
  | .encoded c, .code k => c.kind == k
  | .encoded _, .real => false
  | .invalidInput, .code _ => true
  | .invalidInput, .real => false
  | .decoded _, .code _ => false
  | .decoded _, .real => true

end Sys2Proof.Machine
end

