-- ==== Sys2Proof/Machine/Ops.lean ====
section
/-! DEFINITION. The named operations over the state: transport memory, delivering a response, raising `InvalidInput`, the host's names
(spec/30_encoding.md R57) and the transport's three calls (spec/20_memory.md R31, R32). -/

namespace Sys2Proof.Machine

/-- The canonical form of a memory: addresses strictly rising and of 16 bits (R31). -/
def Memory.wf (m : Memory) : Bool :=
  decide (m.Pairwise fun p q => p.1 < q.1) && m.all fun p => decide (p.1 < 2 ^ 16)

/-- The byte known at an address, if any. -/
def Memory.read : Memory → Nat → Option Byte
  | [], _ => none
  | p :: m, a => if p.1 = a then some p.2 else Memory.read m a

/-- Set the byte at an address, keeping the canonical form. -/
def Memory.write : Memory → Nat → Byte → Memory
  | [], a, b => [(a, b)]
  | p :: m, a, b =>
    if a < p.1 then (a, b) :: p :: m
    else if a = p.1 then (a, b) :: m
    else p :: Memory.write m a b

/-- A memory with all the bytes of another written over it. -/
def Memory.overlay (base : Memory) : Memory → Memory
  | [] => base
  | p :: m => Memory.overlay (Memory.write base p.1 p.2) m

/-- The host goes on to its next line. -/
def State.nextLine (s : State) : State := { s with pending := s.pending.tail }

/-- Deliver a response to the host, which keeps it as its next variable (R54, R57). Nothing else changes (R20). -/
def State.deliver (s : State) (r : Response) : State := { s with outcomes := s.outcomes ++ [r] }

/-- `raise InvalidInput` (R17): the outcome of the failing request and nothing else; no control transfer, no saved state, no mode, no
cause recorded (R102, R106). There is nothing to return from (R108), so no return operation stands beside it. -/
def State.raiseInvalidInput (s : State) : State := s.deliver .invalidInput

/-- The end of an encode operation: its result, or `InvalidInput` raised (R17, R54). -/
def State.deliverEncode (s : State) : OpOutcome Code → State
  | .ok c => s.deliver (.encoded c)
  | .invalidInput => s.raiseInvalidInput

/-- The end of a decode operation, which cannot fail (R85). -/
def State.deliverDecode (s : State) (y : Real64) : State := s.deliver (.decoded y)

/-- The real value an `ENC` line passes when it names an earlier result (R57). -/
def State.namedReal (s : State) (name : Nat) : Except Fault Real64 :=
  match s.outcomes[name]? with
  | none => .error .unknownName
  | some (.decoded y) => .ok y
  | some (.encoded _) => .error .wrongType
  | some .invalidInput => .error .wrongType

/-- The encoded form a `DEC` line of kind `k` passes when it names an earlier outcome (R57). -/
def State.namedCode (s : State) (k : CoefKind) (name : Nat) : Except Fault Code :=
  match s.outcomes[name]? with
  | none => .error .unknownName
  | some (.decoded _) => .error .wrongType
  | some .invalidInput => .error .nothingToPass
  | some (.encoded c) => if c.kind = k then .ok c else .error .wrongType

/-- `WriteByte(addr16, byte)`: received, not yet applied (R31, R32). -/
def State.writeByte (s : State) (a : Addr) (b : Byte) : State :=
  { s with transport := { s.transport with received := s.transport.received.write a.toNat b } }

/-- The byte the device uses at an address: the last one applied, or a free value where none was (R32, N12, log 5). -/
def State.appliedByte (s : State) (a : Addr) : Byte :=
  (s.transport.applied.read a.toNat).getD (Config.unwrittenByte s.freeIndex)

/-- What `ReadByte` returns: the applied byte; before the commit of a written byte, either of the two (R31, R32, U6, log 5, log 6). -/
def State.readValue (s : State) (a : Addr) : Byte :=
  match s.transport.received.read a.toNat with
  | none => s.appliedByte a
  | some w => if Config.readsReceived s.freeIndex then w else s.appliedByte a

/-- `ReadByte(addr16)`: the host keeps the byte (R31). -/
def State.readByte (s : State) (a : Addr) : State :=
  { s with reads := s.reads ++ [s.readValue a], freeIndex := s.freeIndex + 1 }

/-- `IoUpdate()`: every byte received since the last one takes effect at once (R32). -/
def State.ioUpdate (s : State) : State :=
  { s with transport :=
      { received := [], applied := s.transport.applied.overlay s.transport.received } }

end Sys2Proof.Machine
end

