-- ==== Sys2Proof/Machine/Arith.lean ====
section
/-! DEFINITION. The exact arithmetic of the formulas on dyadic rationals (spec/00_scope.md R9 to R14), evaluated on integers as
spec/40_encode.md R76 says (log 12). -/

namespace Sys2Proof.Machine

/-- `clamp(v, lo, hi)` (R10). -/
def clamp (v lo hi : Int) : Int :=
  if v < lo then lo else if hi < v then hi else v

/-- `q * 2^n` (R9, R14). -/
def scale (q : Dyad) (n : Int) : Dyad := ⟨q.sig, q.exp + n⟩

/-- Whether `q < 1`. -/
def belowOne (q : Dyad) : Bool :=
  match q.exp with
  | .ofNat n => decide (q.sig * 2 ^ n < 1)
  | .negSucc n => decide (q.sig < 2 ^ (n + 1))

/-- Whether `q > 1`. -/
def aboveOne (q : Dyad) : Bool :=
  match q.exp with
  | .ofNat n => decide (1 < q.sig * 2 ^ n)
  | .negSucc n => decide (2 ^ (n + 1) < q.sig)

/-- `nclog2(q)`, the `k` with `2^(-k) ≤ q < 2^(1-k)`, for `q > 0` (R12): with `L` the bit length of `sig` it is `-(L - 1 + exp)`. -/
def nclog2 (q : Dyad) : Int := -(q.sig.log2 + q.exp)

/-- `clog2(q)`, the `k` with `2^(k-1) < q ≤ 2^k`, for `q > 0` (R12): one more than the place of the leading bit, unless `q` is a power of
two. -/
def clog2 (q : Dyad) : Int :=
  if q.sig = 2 ^ q.sig.log2 then q.sig.log2 + q.exp else q.sig.log2 + q.exp + 1

/-- The integer nearest to `a / d`, decided by quotient and remainder, an exact half by `tie` (R13, R76). -/
def roundQuotient (tie : Tie) (a d : Nat) : Nat :=
  let t := a / d
  let r := a % d
  if 2 * r < d then t
  else if d < 2 * r then t + 1
  else match tie with
    | .even => t + t % 2
    | .away => t + 1

/-- `rnd(q)`, the integer nearest to `q` (R13). -/
def rnd (tie : Tie) (q : Dyad) : Nat :=
  match q.exp with
  | .ofNat n => q.sig * 2 ^ n
  | .negSucc n => roundQuotient tie q.sig (2 ^ (n + 1))

end Sys2Proof.Machine
end

