-- ==== Sys2Proof/Machine/Operands.lean ====
section
/-! DEFINITION. Operands and results of the operations: reading a real value from a port (spec/00_scope.md R15), writing one (R16), and the
operand check of the encode operations (spec/40_encode.md R65). -/

namespace Sys2Proof.Machine

/-- `s = x[63]` (R15). -/
def sign64 (x : Real64) : Bool := x.getLsbD 63

/-- `e = x[62:52]` (R15). -/
def exp64 (x : Real64) : Nat := (x.extractLsb' 52 11).toNat

/-- `f = x[51:0]` (R15). -/
def frac64 (x : Real64) : Nat := (x.extractLsb' 0 52).toNat

/-- `class64(x)` (R15). -/
def class64 (x : Real64) : FloatClass :=
  if exp64 x = 2047 then if frac64 x = 0 then .inf else .nan
  else if exp64 x = 0 then if frac64 x = 0 then .zero else .subnormal
  else .normal

/-- `abs(val64(x))` of a finite `x`, exact (R11, R15, R76). -/
def mag64 (x : Real64) : Dyad :=
  if exp64 x = 0 then ⟨frac64 x, -1074⟩ else ⟨2 ^ 52 + frac64 x, (exp64 x : Int) - 1075⟩

/-- Alpha and delta require a positive value; beta and gamma discard the sign (R65). -/
def needsPositive : CoefKind → Bool
  | .alpha => true
  | .beta => false
  | .gamma => false
  | .delta => true

/-- `front(kind, x)`: the operand check shared by the four encode operations (R65). -/
def front (k : CoefKind) (x : Real64) : OpOutcome Dyad :=
  match class64 x with
  | .nan => .invalidInput
  | .inf => .invalidInput
  | .zero => .invalidInput
  | .subnormal => if sign64 x && needsPositive k then .invalidInput else .ok (mag64 x)
  | .normal => if sign64 x && needsPositive k then .invalidInput else .ok (mag64 x)

/-- `enc64(m, n)`: the binary64 pattern of `m * 2^n` (R16). R16 calls it exact for `m` of at most 53 bits and an exponent field in
1..2046; every call of the model is (R90, log 16). -/
def enc64 (m : Nat) (n : Int) : Real64 :=
  if m = 0 then 0#64
  else
    let l := m.log2
    let e : Int := 1023 + l + n
    let f : Nat := (m - 2 ^ l) * 2 ^ (52 - l)
    0#1 ++ BitVec.ofNat 11 e.toNat ++ BitVec.ofNat 52 f

end Sys2Proof.Machine
end

