-- ==== Sys2Proof/Machine/Reconstruct.lean ====
section
/-! DEFINITION. The formulas of the four decode operations (spec/41_decode.md R86 to R89). -/

namespace Sys2Proof.Machine

/-- `DEC.ALPHA` as a function: `a0 * 2^(-16 - a1 + a2 + a3)` (R86). -/
def decodeAlpha (c : AlphaCode) : Real64 :=
  enc64 c.a0.toNat (-params.alphaBias - c.a1.toNat + c.a2.toNat + c.a3.toNat)

/-- `DEC.BETA` as a function: `b0 * 2^(-17 - b1)` (R87). -/
def decodeBeta (c : BetaCode) : Real64 :=
  enc64 c.b0.toNat (-params.betaBias - c.b1.toNat)

/-- `DEC.GAMMA` as a function: the computation of beta (R88). -/
def decodeGamma (c : GammaCode) : Real64 :=
  enc64 c.g0.toNat (-params.betaBias - c.g1.toNat)

/-- `DEC.DELTA` as a function: `d0 * 2^(-15 - d1)` (R89). -/
def decodeDelta (c : DeltaCode) : Real64 :=
  enc64 c.d0.toNat (-params.deltaBias - c.d1.toNat)

end Sys2Proof.Machine
end

