-- ==== Sys2Proof/Machine/Decoder.lean ====
section
/-! DEFINITION. The operations of the unit fixed_point_coefficient_decoder (spec/41_decode.md). -/

namespace Sys2Proof.Machine

/-- `DEC.ALPHA` (R86). -/
def execDecAlpha (c : AlphaCode) (s : State) : Host.Outcome State Fault Refusal :=
  .next (s.deliverDecode (decodeAlpha c))

/-- `DEC.BETA` (R87). -/
def execDecBeta (c : BetaCode) (s : State) : Host.Outcome State Fault Refusal :=
  .next (s.deliverDecode (decodeBeta c))

/-- `DEC.GAMMA` (R88). -/
def execDecGamma (c : GammaCode) (s : State) : Host.Outcome State Fault Refusal :=
  .next (s.deliverDecode (decodeGamma c))

/-- `DEC.DELTA` (R89). -/
def execDecDelta (c : DeltaCode) (s : State) : Host.Outcome State Fault Refusal :=
  .next (s.deliverDecode (decodeDelta c))

end Sys2Proof.Machine
end

