-- ==== Sys2Proof/Machine/Encode.lean ====
section
/-! DEFINITION. The formulas of the four encode operations (spec/40_encode.md R66 to R69), as functions of the operand and of `TIE`. -/

namespace Sys2Proof.Machine

/-- `(a2, a3)` of the upward exponent `y` (R66). -/
def splitUp (y : Int) : Int × Int :=
  if params.ySplit ≤ y then (params.a2Max, y - params.a2Max) else (y, 0)

/-- The fields of alpha for `q > 0` (R66). -/
def alphaFields (tie : Tie) (q : Dyad) : AlphaCode :=
  let a1 := if belowOne q then clamp (nclog2 q) 0 params.a1Max else 0
  let y := if aboveOne q then clamp (clog2 q) 0 params.yMax else 0
  let a2 := (splitUp y).1
  let a3 := (splitUp y).2
  let a0 := clamp (rnd tie (scale q (params.alphaBias + a1 - a2 - a3))) params.mMin params.a0Max
  { a0 := BitVec.ofInt 16 a0, a1 := BitVec.ofInt 6 a1, a2 := BitVec.ofInt 3 a2, a3 := BitVec.ofInt 4 a3 }

/-- The fields of beta for `q > 0` (R67). -/
def betaFields (tie : Tie) (q : Dyad) : BetaCode :=
  let b1 := clamp (nclog2 q) 0 params.b1Max
  let b0 := clamp (rnd tie (scale q (params.betaBias + b1))) params.mMin params.b0Max
  { b0 := BitVec.ofInt 17 b0, b1 := BitVec.ofInt 5 b1 }

/-- The fields of gamma for `q > 0`: the computation of beta (R68). -/
def gammaFields (tie : Tie) (q : Dyad) : GammaCode :=
  let g1 := clamp (nclog2 q) 0 params.b1Max
  let g0 := clamp (rnd tie (scale q (params.betaBias + g1))) params.mMin params.b0Max
  { g0 := BitVec.ofInt 17 g0, g1 := BitVec.ofInt 5 g1 }

/-- The fields of delta for `q > 0` (R69). -/
def deltaFields (tie : Tie) (q : Dyad) : DeltaCode :=
  let d1 := clamp (nclog2 q) 0 params.d1Max
  let d0 := clamp (rnd tie (scale q (params.deltaBias + d1))) params.mMin params.d0Max
  { d0 := BitVec.ofInt 15 d0, d1 := BitVec.ofInt 5 d1 }

/-- `ENC.ALPHA` as a function (R66). -/
def encodeAlpha (tie : Tie) (x : Real64) : OpOutcome AlphaCode := (front .alpha x).map (alphaFields tie)

/-- `ENC.BETA` as a function (R67). -/
def encodeBeta (tie : Tie) (x : Real64) : OpOutcome BetaCode := (front .beta x).map (betaFields tie)

/-- `ENC.GAMMA` as a function (R68). -/
def encodeGamma (tie : Tie) (x : Real64) : OpOutcome GammaCode := (front .gamma x).map (gammaFields tie)

/-- `ENC.DELTA` as a function (R69). -/
def encodeDelta (tie : Tie) (x : Real64) : OpOutcome DeltaCode := (front .delta x).map (deltaFields tie)

end Sys2Proof.Machine
end

