-- ==== Sys2Proof/Machine/Encoder.lean ====
section
/-! DEFINITION. The operations of the unit fixed_point_coefficient_encoder (spec/40_encode.md). -/

namespace Sys2Proof.Machine

/-- `ENC.ALPHA` (R66). -/
def execEncAlpha (x : Real64) (s : State) : Host.Outcome State Fault Refusal :=
  .next (s.deliverEncode ((encodeAlpha params.tie x).map .alpha))

/-- `ENC.BETA` (R67). -/
def execEncBeta (x : Real64) (s : State) : Host.Outcome State Fault Refusal :=
  .next (s.deliverEncode ((encodeBeta params.tie x).map .beta))

/-- `ENC.GAMMA` (R68). -/
def execEncGamma (x : Real64) (s : State) : Host.Outcome State Fault Refusal :=
  .next (s.deliverEncode ((encodeGamma params.tie x).map .gamma))

/-- `ENC.DELTA` (R69). -/
def execEncDelta (x : Real64) (s : State) : Host.Outcome State Fault Refusal :=
  .next (s.deliverEncode ((encodeDelta params.tie x).map .delta))

end Sys2Proof.Machine
end

