-- ==== Sys2Proof/Machine/Dispatch.lean ====
section
/-! DEFINITION. One arm per operation of spec/opcode_table.json. -/

namespace Sys2Proof.Machine

def exec (i : Instr) (s : State) : Host.Outcome State Fault Refusal :=
  match i with
  | .encAlpha x => Sys2Proof.Machine.execEncAlpha x s
  | .encBeta x => Sys2Proof.Machine.execEncBeta x s
  | .encGamma x => Sys2Proof.Machine.execEncGamma x s
  | .encDelta x => Sys2Proof.Machine.execEncDelta x s
  | .decAlpha c => Sys2Proof.Machine.execDecAlpha c s
  | .decBeta c => Sys2Proof.Machine.execDecBeta c s
  | .decGamma c => Sys2Proof.Machine.execDecGamma c s
  | .decDelta c => Sys2Proof.Machine.execDecDelta c s

end Sys2Proof.Machine
end

