-- ==== Sys2Proof/Machine/Step.lean ====
section
/-! DEFINITION. One step: the host's next line is carried out as one indivisible event (spec/20_memory.md R37, R41). -/

namespace Sys2Proof.Machine

/-- Carry out the host's next line. A request is decoded and executed; a line that names an earlier result passes it (R57); a transport
call is the transport's. With no line left nothing happens (R104, log 3). -/
def step (s : State) : Host.Outcome State Fault Refusal :=
  match s.pending with
  | [] => .next s
  | .request req :: _ => exec (decode req) s.nextLine
  | .encodeResult k name :: _ =>
    match s.namedReal name with
    | .ok x => exec (k.encodeInstr x) s.nextLine
    | .error f => .fault f
  | .decodeResult k name :: _ =>
    match s.namedCode k name with
    | .ok c => exec c.decodeInstr s.nextLine
    | .error f => .fault f
  | .writeByte a b :: _ => .next (s.nextLine.writeByte a b)
  | .readByte a :: _ => .next (s.nextLine.readByte a)
  | .ioUpdate :: _ => .next s.nextLine.ioUpdate

/-- The state in which the host's next line is the request whose word is `w`, in place of the next line it had (log 2, log 11). -/
def State.withFetchWord (s : State) (_nbits w : Nat) : State :=
  { s with pending := .request (BitVec.ofNat 67 w) :: s.pending.tail }

end Sys2Proof.Machine
end

