-- ==== Sys2Proof/Machine/Reals.lean ====
section
/-! DEFINITION. The spec's own mathematics over the rationals (spec/00_scope.md R9, R12, R13, R15), in which claims are stated: the value of a
binary64 pattern, and the defining inequalities of `clog2`, `nclog2` and `rnd`. The machine computes on integers
(spec/40_encode.md R76); that the two agree is proved, not assumed. -/

namespace Sys2Proof

/-- The rational a dyadic stands for (R9, R14). -/
def Dyad.toRat (q : Dyad) : ℚ := (q.sig : ℚ) * (2 : ℚ) ^ q.exp

end Sys2Proof

namespace Sys2Proof.Machine

/-- `val64(x)` (R15): none for NaN and the infinities. -/
def val64 (x : Real64) : Option ℚ :=
  let s : ℚ := if sign64 x then -1 else 1
  match class64 x with
  | .nan => none
  | .inf => none
  | .zero => some 0
  | .subnormal => some (s * frac64 x * (2 : ℚ) ^ (-1074 : Int))
  | .normal => some (s * (2 ^ 52 + frac64 x) * (2 : ℚ) ^ ((exp64 x : Int) - 1075))

/-- `k` is `clog2(q)`: `2^(k-1) < q ≤ 2^k` (R12). -/
def IsClog2 (q : ℚ) (k : Int) : Prop := (2 : ℚ) ^ (k - 1) < q ∧ q ≤ (2 : ℚ) ^ k

/-- `k` is `nclog2(q)`: `2^(-k) ≤ q < 2^(1-k)` (R12). -/
def IsNclog2 (q : ℚ) (k : Int) : Prop := (2 : ℚ) ^ (-k) ≤ q ∧ q < (2 : ℚ) ^ (1 - k)

/-- `r` is `rnd(q)` for `q ≥ 0`: an integer nearest to `q`; at an exact half the even one, or with `TIE = away` the upper one (R13). -/
def IsRnd (tie : Tie) (q : ℚ) (r : Nat) : Prop :=
  |(r : ℚ) - q| ≤ 1 / 2 ∧
    (|(r : ℚ) - q| = 1 / 2 → match tie with
      | .even => r % 2 = 0
      | .away => q < r)

end Sys2Proof.Machine
end

