-- ==== Sys2Proof/Machine/Units.lean ====
section
/-! DEFINITION. The two units at their ports (spec/30_encoding.md R45, R46) and the response word the wires show for a request word (R47,
R54): functions of the inputs alone (spec/10_state.md R20). -/

namespace Sys2Proof.Machine

/-- The outputs of an encode outcome on the encoder's wires: `invalid`, and `code`, zero when invalid (R45, R54). -/
def encoderOutputs : OpOutcome Code → Bool × CodeWord
  | .ok c => (false, c.pack)
  | .invalidInput => (true, 0#29)

/-- The unit `fixed_point_coefficient_encoder`: inputs `kind`, `x`; outputs `invalid`, `code` (R45). -/
def encoderUnit (kind : BitVec 2) (x : Real64) : Bool × CodeWord :=
  encoderOutputs <| match CoefKind.ofBits kind with
    | .alpha => (encodeAlpha params.tie x).map .alpha
    | .beta => (encodeBeta params.tie x).map .beta
    | .gamma => (encodeGamma params.tie x).map .gamma
    | .delta => (encodeDelta params.tie x).map .delta

/-- The unit `fixed_point_coefficient_decoder`: inputs `kind`, `code`; output `y`; no `invalid` output (R46). -/
def decoderUnit (kind : BitVec 2) (code : CodeWord) : Real64 :=
  match CoefKind.ofBits kind with
  | .alpha => decodeAlpha (AlphaCode.unpack code)
  | .beta => decodeBeta (BetaCode.unpack code)
  | .gamma => decodeGamma (GammaCode.unpack code)
  | .delta => decodeDelta (DeltaCode.unpack code)

/-- The response word for a request word: `op[2]` selects the unit, `op[1:0]` is its `kind` (R47, R54). -/
def responseWord (req : Request) : RspWord :=
  let kind := req.extractLsb' 64 2
  if req.getLsbD 66 then 0#1 ++ decoderUnit kind (req.extractLsb' 0 29)
  else
    let out := encoderUnit kind (req.extractLsb' 0 64)
    BitVec.ofBool out.1 ++ out.2.setWidth 64

end Sys2Proof.Machine
end

