-- ==== Sys2Proof/WellFormed.lean ====
section
/-! DEFINITION. What is well-formed: instructions (all of them, spec/30_encoding.md R55), the canonical encoded forms (spec/40_encode.md
R75), and host programs (spec/30_encoding.md R57). -/

namespace Sys2Proof

/-- Every operation with every operand is well-formed: all eight `op` values are operations, every operand value is legal, and the field
widths are in the types (R26, R55, R85). -/
def Instr.wf : Instr → Bool
  | .encAlpha _ => true
  | .encBeta _ => true
  | .encGamma _ => true
  | .encDelta _ => true
  | .decAlpha _ => true
  | .decBeta _ => true
  | .decGamma _ => true
  | .decDelta _ => true

/-- The alpha forms an encode operation can return (R75): `(65535, k, 0, 0)`; `(m, 63, 0, 0)` with `m ≥ 1`; and `(m, 0, split k)` with
`m ≥ 32768` and `1 ≤ k ≤ 22`, where `split k` is `(k, 0)` below 8 and `(7, k - 7)` from 8 on. -/
def AlphaCode.canonical (c : AlphaCode) : Bool :=
  (c.a0 == 65535 && c.a2 == 0 && c.a3 == 0)
    || (c.a1 == 63 && c.a2 == 0 && c.a3 == 0 && c.a0 != 0)
    || (c.a1 == 0 && decide (32768 ≤ c.a0.toNat) && c.a2 != 0 && (c.a3 == 0 || c.a2 == 7))

/-- The beta forms an encode operation can return (R75). -/
def BetaCode.canonical (c : BetaCode) : Bool :=
  c.b0 == 131071 || (c.b1 == 31 && c.b0 != 0)

/-- The gamma forms an encode operation can return (R75). -/
def GammaCode.canonical (c : GammaCode) : Bool :=
  c.g0 == 131071 || (c.g1 == 31 && c.g0 != 0)

/-- The delta forms an encode operation can return (R75). -/
def DeltaCode.canonical (c : DeltaCode) : Bool :=
  c.d0 == 32767 || (c.d1 == 31 && c.d0 != 0)

/-- The canonical forms of every kind (R75). The decoder does not check this (R85, R91). -/
def Code.canonical : Code → Bool
  | .alpha c => c.canonical
  | .beta c => c.canonical
  | .gamma c => c.canonical
  | .delta c => c.canonical

/-- What a line of a host program adds to the results that later lines can name; transport calls add none (R57). -/
def HostAction.result : HostAction → Option ResultType
  | .request req =>
    some (if req.getLsbD 66 then .real else .code (CoefKind.ofBits (req.extractLsb' 64 2)))
  | .encodeResult k _ => some (.code k)
  | .decodeResult _ _ => some .real
  | .writeByte _ _ => none
  | .readByte _ => none
  | .ioUpdate => none

/-- A line names only an earlier result of the type it needs: an `ENC` line a `DEC` result, a `DEC` line an `ENC` outcome of its own kind
(R57, R26). -/
def HostAction.namesOk (known : List ResultType) : HostAction → Bool
  | .encodeResult _ n => known[n]? == some .real
  | .decodeResult k n => known[n]? == some (.code k)
  | .request _ => true
  | .writeByte _ _ => true
  | .readByte _ => true
  | .ioUpdate => true

/-- A host program is well-formed after the results `known`: every line names only earlier results, rightly typed (R57). -/
def programWf : List ResultType → List HostAction → Bool
  | _, [] => true
  | known, a :: rest => a.namesOk known && programWf (known ++ a.result.toList) rest

end Sys2Proof
end

