-- ==== Sys2Proof/Safety.lean ====
section
/-! DEFINITION. The terms in which safety is claimed: what every reachable state keeps, and the host's duties (spec/60_exceptions.md R107,
spec/70_reset_and_hazards.md R117, R119), which the block does not enforce. -/

namespace Sys2Proof.Machine

/-- The mantissa field of an encoded form (R5). -/
def mantissa : Code → Nat
  | .alpha c => c.a0.toNat
  | .beta c => c.b0.toNat
  | .gamma c => c.g0.toNat
  | .delta c => c.d0.toNat

/-- A response the block can give: of an encode operation a canonical form (R75) or `InvalidInput`; of a decode operation +0.0 or a
positive normal pattern with its exponent field in 944..1044 (R90). -/
def Response.sound : Response → Bool
  | .encoded c => c.canonical
  | .invalidInput => true
  | .decoded y => y == 0#64
      || (class64 y == .normal && !sign64 y && decide (944 ≤ exp64 y) && decide (exp64 y ≤ 1044))

/-- What every step keeps: the transport's memories are in canonical form, and every response delivered is one the block can give. -/
def State.inv (s : State) : Bool :=
  Memory.wf s.transport.received && Memory.wf s.transport.applied && s.outcomes.all Response.sound

/-- The host's variables have the types `known`, and the rest of its program is well-formed after them (R57). -/
def State.wellTyped (known : List ResultType) (s : State) : Bool :=
  s.outcomes.length == known.length
    && (s.outcomes.zip known).all (fun p => p.1.hasType p.2)
    && programWf known s.pending

/-- Duty of R117: an `IoUpdate` follows every `WriteByte`. -/
def everyWriteCommitted : List HostAction → Bool
  | [] => true
  | .writeByte _ _ :: rest => rest.contains .ioUpdate && everyWriteCommitted rest
  | .request _ :: rest => everyWriteCommitted rest
  | .encodeResult _ _ :: rest => everyWriteCommitted rest
  | .decodeResult _ _ :: rest => everyWriteCommitted rest
  | .readByte _ :: rest => everyWriteCommitted rest
  | .ioUpdate :: rest => everyWriteCommitted rest

/-- Duty of R119 towards one coefficient kept at the addresses `batch`: no `IoUpdate` between the first and the last write of the
coefficient. `todo` are the addresses still to be written of a coefficient being written, none if none is. -/
def commitsWhole (batch : List Addr) : List Addr → List HostAction → Bool
  | _, [] => true
  | todo, .writeByte a _ :: rest =>
    if batch.contains a then commitsWhole batch ((if todo.isEmpty then batch else todo).erase a) rest
    else commitsWhole batch todo rest
  | todo, .ioUpdate :: rest => todo.isEmpty && commitsWhole batch todo rest
  | todo, .request _ :: rest => commitsWhole batch todo rest
  | todo, .encodeResult _ _ :: rest => commitsWhole batch todo rest
  | todo, .decodeResult _ _ :: rest => commitsWhole batch todo rest
  | todo, .readByte _ :: rest => commitsWhole batch todo rest

/-- Duty of R107 after `InvalidInput`, towards the coefficient kept at the addresses `batch`: no `WriteByte` to it. -/
def writesNone (batch : List Addr) (program : List HostAction) : Bool :=
  program.all fun a => match a with
    | .writeByte a _ => !batch.contains a
    | .request _ => true
    | .encodeResult _ _ => true
    | .decodeResult _ _ => true
    | .readByte _ => true
    | .ioUpdate => true

end Sys2Proof.Machine
end

