-- ==== Sys2Proof/Certificates/Slice0/Obligations.lean ====
section
/-! DEFINITION. The statements for the provers. Each docstring names the rule of spec/ it comes from; where a statement rests on a
choice of the model it names the log entry. -/

open Sys2Proof Sys2Proof.Machine

/-! Encoding and decoding of request words. -/

/-- R58: the request of `ENC.<KIND> d, v` is `{op, x}`, that of `DEC.<KIND> d, t` is `{op, zext_64(code)}`, with the rule's examples. -/
def Obligations.RequestWordIsOpAndOperand : Prop :=
  (∀ x : Real64, encode (.encAlpha x) = 0b000#3 ++ x ∧ encode (.encBeta x) = 0b001#3 ++ x ∧
    encode (.encGamma x) = 0b010#3 ++ x ∧ encode (.encDelta x) = 0b011#3 ++ x) ∧
  (∀ c : AlphaCode, encode (.decAlpha c) = 0b100#3 ++ (c.a3 ++ c.a2 ++ c.a1 ++ c.a0 : BitVec 29).setWidth 64) ∧
  (∀ c : BetaCode, encode (.decBeta c) = 0b101#3 ++ (0#7 ++ c.b1 ++ c.b0 : BitVec 29).setWidth 64) ∧
  (∀ c : GammaCode, encode (.decGamma c) = 0b110#3 ++ (0#7 ++ c.g1 ++ c.g0 : BitVec 29).setWidth 64) ∧
  (∀ c : DeltaCode, encode (.decDelta c) = 0b111#3 ++ (0#9 ++ c.d1 ++ c.d0 : BitVec 29).setWidth 64) ∧
  val64 0x3FE0000000000000#64 = some (1 / 2) ∧
  encode (.encAlpha 0x3FE0000000000000#64) = 0x03FE0000000000000#67 ∧
  encode (.decAlpha ⟨65535, 1, 0, 0⟩) = 0x4000000000001FFFF#67

/-- R47, R48, R50 to R52: words written out from the encodings decode to the operations they stand for. -/
def Obligations.SpecWordsDecode : Prop :=
  decode 0x03FE0000000000000#67 = .encAlpha 0x3FE0000000000000#64 ∧
  decode 0x1BFE8000000000000#67 = .encBeta 0xBFE8000000000000#64 ∧
  decode 0x23DF0000000000000#67 = .encGamma 0x3DF0000000000000#64 ∧
  decode 0x33FB999999999999A#67 = .encDelta 0x3FB999999999999A#64 ∧
  decode 0x40000000004C59C40#67 = .decAlpha ⟨40000, 5, 3, 2⟩ ∧
  decode 0x5000000000003FFFF#67 = .decBeta ⟨131071, 1⟩ ∧
  decode 0x600000000003F0000#67 = .decGamma ⟨65536, 31⟩ ∧
  decode 0x7FFFFFFFFFFF27FFF#67 = .decDelta ⟨32767, 4⟩

/-- R47, R48, R50 to R52: decoding the encoding of a well-formed operation gives it back, whatever its operand. -/
def Obligations.DecodeOfEncodeIsTheOperation : Prop :=
  ∀ i : Instr, i.wf = true → decode (encode i) = i

/-- R53, R55: every 67-bit word is a request, and encoding what it decodes to clears just the bits of `opnd` the operation ignores. -/
def Obligations.EncodeOfDecodeClearsUnusedBits : Prop :=
  ∀ req : Request, encode (decode req) =
    req &&& (0b111#3 ++ usedOperandBits (req.extractLsb' 64 3))

/-- R53: two request words ask for the same operation just if they agree on `op` and on the operand bits that `op` uses. -/
def Obligations.OnlyUnusedBitsAreIgnored : Prop :=
  ∀ r t : Request, decode r = decode t ↔
    r.extractLsb' 64 3 = t.extractLsb' 64 3 ∧
    r.extractLsb' 0 64 &&& usedOperandBits (r.extractLsb' 64 3) =
      t.extractLsb' 0 64 &&& usedOperandBits (r.extractLsb' 64 3)

/-! The step. -/

/-- R47, R57: when the host's next line is a request word, a step is `exec` of the operation it decodes to, past that line; so it is when
the word is placed as the host places it. -/
def Obligations.StepRunsTheDecodedRequest : Prop :=
  (∀ (s : State) (req : Request) (rest : List HostAction), s.pending = .request req :: rest →
    step s = exec (decode req) { s with pending := rest }) ∧
  (∀ (s : State) (i : Instr) (nbits : Nat), i.wf = true →
    step (s.withFetchWord nbits (encode i).toNat) = exec i { s with pending := s.pending.tail })

/-- R57, log 8: a line that names an earlier result passes it; a `DEC` line naming an `InvalidInput` outcome stops by name, and so does a
line that names no result or one of another type. -/
def Obligations.StepPassesNamedResults : Prop :=
  (∀ (s : State) (k : CoefKind) (n : Nat) (rest : List HostAction), s.pending = .encodeResult k n :: rest →
    (∀ y, s.outcomes[n]? = some (.decoded y) → step s = exec (k.encodeInstr y) { s with pending := rest }) ∧
    (s.outcomes[n]? = none → step s = .fault .unknownName) ∧
    (∀ c, s.outcomes[n]? = some (.encoded c) → step s = .fault .wrongType) ∧
    (s.outcomes[n]? = some .invalidInput → step s = .fault .wrongType)) ∧
  (∀ (s : State) (k : CoefKind) (n : Nat) (rest : List HostAction), s.pending = .decodeResult k n :: rest →
    (∀ c, s.outcomes[n]? = some (.encoded c) → c.kind = k → step s = exec c.decodeInstr { s with pending := rest }) ∧
    (∀ c, s.outcomes[n]? = some (.encoded c) → c.kind ≠ k → step s = .fault .wrongType) ∧
    (s.outcomes[n]? = some .invalidInput → step s = .fault .nothingToPass) ∧
    (s.outcomes[n]? = none → step s = .fault .unknownName) ∧
    (∀ y, s.outcomes[n]? = some (.decoded y) → step s = .fault .wrongType))

/-- R104, log 3: with no line left nothing happens. -/
def Obligations.NothingHappensBetweenRequests : Prop :=
  ∀ s : State, s.pending = [] → step s = .next s

/-- R45 to R47, R54, R55, R115: every one of the 2^67 request words is answered in every state, after reset or not, by one response that
the word alone determines; on the wires it is what the unit selected by `op` puts out; nothing else changes. -/
def Obligations.EveryRequestIsAnsweredByItsUnit : Prop :=
  ∀ req : Request, ∃ r : Response, r.word = responseWord req ∧
    ∀ (s : State) (rest : List HostAction), s.pending = .request req :: rest →
      step s = .next { s with pending := rest, outcomes := s.outcomes ++ [r] }

/-- R20, R30, R38, R78 and the frame of all eight operations: an operation answers a next state that differs only by one more response, of
the operation's type, which is the same in every state. -/
def Obligations.EveryOperationOnlyAddsItsResponse : Prop :=
  ∀ i : Instr, ∃ r : Response,
    (∀ (k : CoefKind) (x : Real64), i = k.encodeInstr x → r.hasType (.code k) = true) ∧
    (∀ c : Code, i = c.decodeInstr → r.hasType .real = true) ∧
    ∀ s : State, exec i s = .next { s with outcomes := s.outcomes ++ [r] }

/-- R20, R41: two requests give the same responses in either order. -/
def Obligations.RequestOrderIsImmaterial : Prop :=
  ∀ q₁ q₂ : Request, ∃ r₁ r₂ : Response, ∀ (s : State) (rest : List HostAction),
    (s.pending = .request q₁ :: .request q₂ :: rest →
      core.run 2 s = .next { s with pending := rest, outcomes := s.outcomes ++ [r₁, r₂] }) ∧
    (s.pending = .request q₂ :: .request q₁ :: rest →
      core.run 2 s = .next { s with pending := rest, outcomes := s.outcomes ++ [r₂, r₁] })

/-- R106, R108: a failed encode request leaves nothing behind: the requests after it are answered as if it had never been made. -/
def Obligations.FailedRequestLeavesNoTrace : Prop :=
  ∀ (k : CoefKind) (x : Real64) (q : Request), front k x = .invalidInput →
    ∃ r : Response, ∀ (s : State) (rest : List HostAction),
      (s.pending = .request (encode (k.encodeInstr x)) :: .request q :: rest →
        core.run 2 s = .next { s with pending := rest, outcomes := s.outcomes ++ [.invalidInput, r] }) ∧
      (s.pending = .request q :: rest →
        core.run 1 s = .next { s with pending := rest, outcomes := s.outcomes ++ [r] })

/-! Exceptions and the response word. -/

/-- R101: which operations end in `InvalidInput`, on which operands; otherwise an encode operation returns a form of its kind, the sign
discarded; decode operations never raise it. -/
def Obligations.InvalidInputExactlyOnTheTable : Prop :=
  (∀ (k : CoefKind) (x : Real64) (s : State),
    let rejected := class64 x = .zero ∨ class64 x = .inf ∨ class64 x = .nan ∨
      ((class64 x = .normal ∨ class64 x = .subnormal) ∧ sign64 x = true ∧ (k = .alpha ∨ k = .delta))
    (rejected → exec (k.encodeInstr x) s = .next { s with outcomes := s.outcomes ++ [.invalidInput] }) ∧
    (¬rejected → ∃ c : Code, c.kind = k ∧
      exec (k.encodeInstr x) s = .next { s with outcomes := s.outcomes ++ [.encoded c] } ∧
      exec (k.encodeInstr (x &&& 0x7FFFFFFFFFFFFFFF#64)) s = .next { s with outcomes := s.outcomes ++ [.encoded c] })) ∧
  (∀ (c : Code) (s : State),
    exec c.decodeInstr s ≠ .next { s with outcomes := s.outcomes ++ [.invalidInput] })

/-- R54: the response word `{invalid, data}` of each outcome; all-zero is never a successful encode result. -/
def Obligations.ResponseWordOfEachOutcome : Prop :=
  (∀ (k : CoefKind) (x : Real64) (s : State), ∃ r : Response,
    exec (k.encodeInstr x) s = .next { s with outcomes := s.outcomes ++ [r] } ∧
    ((r = .invalidInput ∧ r.word = 0x10000000000000000#65) ∨
     (∃ c : Code, r = .encoded c ∧ c.kind = k ∧ r.word.getLsbD 64 = false ∧
       r.word.extractLsb' 0 29 = c.pack ∧ r.word.extractLsb' 29 35 = 0#35 ∧ r.word ≠ 0#65))) ∧
  (∀ (c : Code) (s : State), ∃ y : Real64,
    exec c.decodeInstr s = .next { s with outcomes := s.outcomes ++ [.decoded y] } ∧
    (Response.decoded y).word.getLsbD 64 = false ∧ (Response.decoded y).word.extractLsb' 0 64 = y)

/-! Primitives. -/

/-- R10: the three cases of `clamp`, and its equivalent form. -/
def Obligations.ClampCases : Prop :=
  ∀ v lo hi : Int, lo ≤ hi →
    (v < lo → clamp v lo hi = lo) ∧ (hi < v → clamp v lo hi = hi) ∧
    (lo ≤ v → v ≤ hi → clamp v lo hi = v) ∧ clamp v lo hi = min (max v lo) hi

/-- R12: `clog2` and `nclog2` are the unique integers of their inequalities, `nclog2` is the negated floor of the logarithm, their signs,
their values at powers of two; they are never applied to anything but a positive magnitude. -/
def Obligations.LogarithmCeilings : Prop :=
  (∀ q : Dyad, 0 < q.sig →
    (∀ k : Int, IsClog2 q.toRat k ↔ k = clog2 q) ∧ (∀ k : Int, IsNclog2 q.toRat k ↔ k = nclog2 q) ∧
    nclog2 q = -Int.log 2 q.toRat ∧
    (q.toRat ≤ 1 → clog2 q ≤ 0) ∧ (1 ≤ q.toRat → nclog2 q ≤ 0) ∧
    (∀ j : Int, q.toRat = (2 : ℚ) ^ j → clog2 q = j ∧ nclog2 q = -j)) ∧
  (∀ (k : CoefKind) (x : Real64) (q : Dyad), front k x = .ok q → 0 < q.toRat)

/-- R13: `rnd` is the one integer nearest to `q`, ties broken by `TIE`; the rule's ten values; a tie only where `2 q` is odd. -/
def Obligations.RoundToNearest : Prop :=
  (∀ (tie : Tie) (q : Dyad) (r : Nat), IsRnd tie q.toRat r ↔ r = rnd tie q) ∧
  ([1, 3, 5, 65537, 131071].map (fun n => rnd .even ⟨n, -1⟩) = [0, 2, 2, 32768, 65536]) ∧
  ([1, 3, 5, 65537, 131071].map (fun n => rnd .away ⟨n, -1⟩) = [1, 2, 3, 32769, 65536]) ∧
  (∀ q : Dyad, rnd .even q ≠ rnd .away q → ∃ n : Nat, q.toRat * 2 = 2 * n + 1)

/-- R76: the logarithm ceilings, the comparison with 1 and the scaled mantissa, read from the bits of `x`. -/
def Obligations.EvaluationFromTheBits : Prop :=
  ∀ (x : Real64) (q : ℚ), val64 x = some q →
    (class64 x = .normal →
      let e : Int := (exp64 x : Int) - 1023
      (2 : ℚ) ^ e ≤ |q| ∧ |q| < (2 : ℚ) ^ (e + 1) ∧ nclog2 (mag64 x) = -e ∧
      clog2 (mag64 x) = (if frac64 x = 0 then e else e + 1) ∧
      (|q| < 1 ↔ exp64 x < 1023) ∧ (|q| = 1 ↔ exp64 x = 1023 ∧ frac64 x = 0) ∧
      ∀ n : Int, (scale (mag64 x) n).toRat = |q| * (2 : ℚ) ^ n ∧
        |q| * (2 : ℚ) ^ n = ((2 ^ 52 + frac64 x : Nat) : ℚ) * (2 : ℚ) ^ ((exp64 x : Int) - 1075 + n)) ∧
    (class64 x = .subnormal → ∀ l : Nat, 2 ^ l ≤ 2 * frac64 x → frac64 x < 2 ^ l →
      |q| < 1 ∧ nclog2 (mag64 x) = 1075 - l ∧ clamp (nclog2 (mag64 x)) 0 63 = 63 ∧
      clamp (nclog2 (mag64 x)) 0 31 = 31 ∧
      ∀ n : Int, (scale (mag64 x) n).toRat = (frac64 x : ℚ) * (2 : ℚ) ^ (-1074 + n))

/-! Encode operations. -/

/-- R66: `ENC.ALPHA` is the request with `op = 000`; on NaN, an infinity, zero or a negative real it is `InvalidInput`; on a positive real it
completes with the fields of the rule's formulas, packed by R50. -/
def Obligations.EncAlphaMeetsItsFormulas : Prop :=
  ∀ (s : State) (x : Real64), decode (0b000#3 ++ x) = .encAlpha x ∧
    ((∀ q, val64 x = some q → q ≤ 0) →
      exec (.encAlpha x) s = .next { s with outcomes := s.outcomes ++ [.invalidInput] }) ∧
    ∀ q : ℚ, val64 x = some q → 0 < q → ∃ c : AlphaCode,
      exec (.encAlpha x) s = .next { s with outcomes := s.outcomes ++ [.encoded (.alpha c)] } ∧
      (Response.encoded (.alpha c)).data = 0#35 ++ c.a3 ++ c.a2 ++ c.a1 ++ c.a0 ∧
      ∃ (a1 y : Int) (r : Nat),
        (q < 1 → ∃ k, IsNclog2 q k ∧ a1 = clamp k 0 63) ∧ (1 ≤ q → a1 = 0) ∧
        (1 < q → ∃ k, IsClog2 q k ∧ y = clamp k 0 22) ∧ (q ≤ 1 → y = 0) ∧
        (c.a1.toNat : Int) = a1 ∧
        (8 ≤ y → (c.a2.toNat : Int) = 7 ∧ (c.a3.toNat : Int) = y - 7) ∧
        (y < 8 → (c.a2.toNat : Int) = y ∧ (c.a3.toNat : Int) = 0) ∧
        IsRnd .even (q * (2 : ℚ) ^ (16 + a1 - c.a2.toNat - c.a3.toNat)) r ∧
        (c.a0.toNat : Int) = clamp r 1 65535

/-- R67, R68: `ENC.BETA` and `ENC.GAMMA` are the requests with `op = 001` and `010`; on NaN, an infinity or zero they are `InvalidInput`; on
any other real they complete with the fields of the formulas of its magnitude, packed by R51, equal for the two. -/
def Obligations.EncBetaGammaMeetTheirFormulas : Prop :=
  ∀ (s : State) (x : Real64), decode (0b001#3 ++ x) = .encBeta x ∧ decode (0b010#3 ++ x) = .encGamma x ∧
    ((∀ q, val64 x = some q → q = 0) →
      exec (.encBeta x) s = .next { s with outcomes := s.outcomes ++ [.invalidInput] } ∧
      exec (.encGamma x) s = .next { s with outcomes := s.outcomes ++ [.invalidInput] }) ∧
    ∀ q : ℚ, val64 x = some q → q ≠ 0 → ∃ c : BetaCode,
      exec (.encBeta x) s = .next { s with outcomes := s.outcomes ++ [.encoded (.beta c)] } ∧
      exec (.encGamma x) s = .next { s with outcomes := s.outcomes ++ [.encoded (.gamma ⟨c.b0, c.b1⟩)] } ∧
      (Response.encoded (.beta c)).data = 0#42 ++ c.b1 ++ c.b0 ∧
      (Response.encoded (.gamma ⟨c.b0, c.b1⟩)).data = 0#42 ++ c.b1 ++ c.b0 ∧
      ∃ (k : Int) (r : Nat), IsNclog2 |q| k ∧ (c.b1.toNat : Int) = clamp k 0 31 ∧
        IsRnd .even (|q| * (2 : ℚ) ^ (17 + (c.b1.toNat : Int))) r ∧ (c.b0.toNat : Int) = clamp r 1 131071

/-- R69: `ENC.DELTA` is the request with `op = 011`; on NaN, an infinity, zero or a negative real it is `InvalidInput`; on a positive real it
completes with the fields of the rule's formulas, packed by R52. -/
def Obligations.EncDeltaMeetsItsFormulas : Prop :=
  ∀ (s : State) (x : Real64), decode (0b011#3 ++ x) = .encDelta x ∧
    ((∀ q, val64 x = some q → q ≤ 0) →
      exec (.encDelta x) s = .next { s with outcomes := s.outcomes ++ [.invalidInput] }) ∧
    ∀ q : ℚ, val64 x = some q → 0 < q → ∃ c : DeltaCode,
      exec (.encDelta x) s = .next { s with outcomes := s.outcomes ++ [.encoded (.delta c)] } ∧
      (Response.encoded (.delta c)).data = 0#44 ++ c.d1 ++ c.d0 ∧
      ∃ (k : Int) (r : Nat), IsNclog2 q k ∧ (c.d1.toNat : Int) = clamp k 0 31 ∧
        IsRnd .even (q * (2 : ℚ) ^ (15 + (c.d1.toNat : Int))) r ∧ (c.d0.toNat : Int) = clamp r 1 32767

/-- R71: every returned field is in its range; in particular no mantissa is 0. -/
def Obligations.EncodedFieldsInRange : Prop :=
  ∀ (s : State) (x : Real64),
    (∀ c : AlphaCode, exec (.encAlpha x) s = .next { s with outcomes := s.outcomes ++ [.encoded (.alpha c)] } →
      1 ≤ c.a0.toNat ∧ c.a0.toNat ≤ 65535 ∧ c.a1.toNat ≤ 63 ∧ c.a2.toNat ≤ 7 ∧ c.a3.toNat ≤ 15) ∧
    (∀ c : BetaCode, exec (.encBeta x) s = .next { s with outcomes := s.outcomes ++ [.encoded (.beta c)] } →
      1 ≤ c.b0.toNat ∧ c.b0.toNat ≤ 131071 ∧ c.b1.toNat ≤ 31) ∧
    (∀ c : GammaCode, exec (.encGamma x) s = .next { s with outcomes := s.outcomes ++ [.encoded (.gamma c)] } →
      1 ≤ c.g0.toNat ∧ c.g0.toNat ≤ 131071 ∧ c.g1.toNat ≤ 31) ∧
    (∀ c : DeltaCode, exec (.encDelta x) s = .next { s with outcomes := s.outcomes ++ [.encoded (.delta c)] } →
      1 ≤ c.d0.toNat ∧ c.d0.toNat ≤ 32767 ∧ c.d1.toNat ≤ 31)

/-- R72: the closed form of `ENC.ALPHA` by range of `q`, for both values of `TIE`. -/
def Obligations.AlphaClosedForm : Prop :=
  ∀ (tie : Tie) (x : Real64) (q : ℚ), val64 x = some q → 0 < q →
    (2 ^ 22 < q → encodeAlpha tie x = .ok ⟨65535, 0, 7, 15⟩) ∧
    (1 < q → q ≤ 2 ^ 22 → ∃ k r : Nat, 1 ≤ k ∧ k ≤ 22 ∧ IsClog2 q k ∧
      32768 < q * (2 : ℚ) ^ (16 - (k : Int)) ∧ q * (2 : ℚ) ^ (16 - (k : Int)) ≤ 65536 ∧
      IsRnd tie (q * (2 : ℚ) ^ (16 - (k : Int))) r ∧
      (65535 + 1 / 2 ≤ q * (2 : ℚ) ^ (16 - (k : Int)) → r = 65536) ∧
      32768 ≤ min r 65535 ∧
      encodeAlpha tie x = .ok ⟨BitVec.ofNat 16 (min r 65535), 0,
        BitVec.ofNat 3 (if 8 ≤ k then 7 else k), BitVec.ofNat 4 (if 8 ≤ k then k - 7 else 0)⟩) ∧
    (q = 1 → encodeAlpha tie x = .ok ⟨65535, 0, 0, 0⟩) ∧
    ((2 : ℚ) ^ (-63 : Int) ≤ q → q < 1 → ∃ k : Nat, 1 ≤ k ∧ k ≤ 63 ∧ IsNclog2 q k ∧
      65536 ≤ q * (2 : ℚ) ^ (16 + k) ∧ q * (2 : ℚ) ^ (16 + k) < 131072 ∧
      encodeAlpha tie x = .ok ⟨65535, BitVec.ofNat 6 k, 0, 0⟩) ∧
    (q < (2 : ℚ) ^ (-63 : Int) → ∃ r : Nat, 0 < q * 2 ^ 79 ∧ q * 2 ^ 79 < 65536 ∧ IsRnd tie (q * 2 ^ 79) r ∧
      encodeAlpha tie x = .ok ⟨BitVec.ofInt 16 (clamp r 1 65535), 63, 0, 0⟩)

/-- R73: the closed form of `ENC.BETA` and `ENC.GAMMA` by range of `|val64(x)|`, for both values of `TIE`. -/
def Obligations.BetaGammaClosedForm : Prop :=
  ∀ (tie : Tie) (x : Real64) (v : ℚ), val64 x = some v → v ≠ 0 →
    (1 ≤ |v| → 131072 ≤ |v| * 2 ^ 17 ∧
      encodeBeta tie x = .ok ⟨131071, 0⟩ ∧ encodeGamma tie x = .ok ⟨131071, 0⟩) ∧
    ((2 : ℚ) ^ (-31 : Int) ≤ |v| → |v| < 1 → ∃ k : Nat, 1 ≤ k ∧ k ≤ 31 ∧ IsNclog2 |v| k ∧
      131072 ≤ |v| * 2 ^ (17 + k) ∧
      encodeBeta tie x = .ok ⟨131071, BitVec.ofNat 5 k⟩ ∧ encodeGamma tie x = .ok ⟨131071, BitVec.ofNat 5 k⟩) ∧
    (|v| < (2 : ℚ) ^ (-31 : Int) → ∃ r : Nat, 0 < |v| * 2 ^ 48 ∧ |v| * 2 ^ 48 < 131072 ∧ IsRnd tie (|v| * 2 ^ 48) r ∧
      encodeBeta tie x = .ok ⟨BitVec.ofInt 17 (clamp r 1 131071), 31⟩ ∧
      encodeGamma tie x = .ok ⟨BitVec.ofInt 17 (clamp r 1 131071), 31⟩)

/-- R74: the closed form of `ENC.DELTA` by range of `q`, for both values of `TIE`. -/
def Obligations.DeltaClosedForm : Prop :=
  ∀ (tie : Tie) (x : Real64) (q : ℚ), val64 x = some q → 0 < q →
    (1 ≤ q → encodeDelta tie x = .ok ⟨32767, 0⟩) ∧
    ((2 : ℚ) ^ (-31 : Int) ≤ q → q < 1 → ∃ k : Nat, 1 ≤ k ∧ k ≤ 31 ∧ IsNclog2 q k ∧
      encodeDelta tie x = .ok ⟨32767, BitVec.ofNat 5 k⟩) ∧
    (q < (2 : ℚ) ^ (-31 : Int) → ∃ r : Nat, 0 < q * 2 ^ 46 ∧ q * 2 ^ 46 < 32768 ∧ IsRnd tie (q * 2 ^ 46) r ∧
      encodeDelta tie x = .ok ⟨BitVec.ofInt 15 (clamp r 1 32767), 31⟩)

/-- R75: the canonical forms are exactly the forms that an encode operation of their kind returns for some binary64 operand. -/
def Obligations.CanonicalFormsAreExactlyTheEncodedOnes : Prop :=
  ∀ c : Code, c.canonical = true ↔
    ∃ x : Real64, ∀ s : State,
      exec (c.kind.encodeInstr x) s = .next { s with outcomes := s.outcomes ++ [.encoded c] }

/-- R11, R67 (a): the sign of the operand of `ENC.BETA` and `ENC.GAMMA` has no effect. -/
def Obligations.BetaGammaDiscardTheSign : Prop :=
  ∀ (s : State) (x : Real64),
    exec (.encBeta (x ^^^ 0x8000000000000000#64)) s = exec (.encBeta x) s ∧
    exec (.encGamma (x ^^^ 0x8000000000000000#64)) s = exec (.encGamma x) s ∧
    exec (.encBeta (x &&& 0x7FFFFFFFFFFFFFFF#64)) s = exec (.encBeta x) s ∧
    exec (.encGamma (x &&& 0x7FFFFFFFFFFFFFFF#64)) s = exec (.encGamma x) s

/-- R68, R88: gamma equals beta field for field, in both directions, failures included. -/
def Obligations.GammaEqualsBeta : Prop :=
  (∀ (s : State) (x : Real64),
    (exec (.encBeta x) s = .next { s with outcomes := s.outcomes ++ [.invalidInput] } ∧
      exec (.encGamma x) s = .next { s with outcomes := s.outcomes ++ [.invalidInput] }) ∨
    ∃ c : BetaCode, exec (.encBeta x) s = .next { s with outcomes := s.outcomes ++ [.encoded (.beta c)] } ∧
      exec (.encGamma x) s = .next { s with outcomes := s.outcomes ++ [.encoded (.gamma ⟨c.b0, c.b1⟩)] }) ∧
  (∀ (s : State) (c : BetaCode), exec (.decGamma ⟨c.b0, c.b1⟩) s = exec (.decBeta c) s)

/-! Decode operations. -/

/-- R85: every decode operation returns a result for every value of its operand fields, canonical or not, and changes nothing else. -/
def Obligations.DecodeNeverFails : Prop :=
  ∀ (c : Code) (s : State), ∃ y : Real64,
    exec c.decodeInstr s = .next { s with outcomes := s.outcomes ++ [.decoded y] }

/-- R86: `DEC.ALPHA` is the request with `op = 100` and its operand packed by R50; it completes with the pattern of
`a0 * 2^(-16 - a1 + a2 + a3)`, +0.0 where `a0` is 0; `a2`, `a3` enter by their sum. -/
def Obligations.DecAlphaValue : Prop :=
  (∀ (s : State) (c : AlphaCode), decode (0b100#3 ++ 0#35 ++ c.a3 ++ c.a2 ++ c.a1 ++ c.a0) = .decAlpha c ∧ ∃ y : Real64,
    exec (.decAlpha c) s = .next { s with outcomes := s.outcomes ++ [.decoded y] } ∧
    val64 y = some ((c.a0.toNat : ℚ) *
      (2 : ℚ) ^ (-16 - (c.a1.toNat : Int) + (c.a2.toNat : Int) + (c.a3.toNat : Int))) ∧
    (c.a0 = 0 → y = 0#64)) ∧
  (∀ (s : State) (c d : AlphaCode), c.a0 = d.a0 → c.a1 = d.a1 →
    c.a2.toNat + c.a3.toNat = d.a2.toNat + d.a3.toNat → exec (.decAlpha c) s = exec (.decAlpha d) s)

/-- R87, R88: `DEC.BETA` and `DEC.GAMMA` are the requests with `op = 101` and `110` and their operand packed by R51; they complete with the
pattern of `b0 * 2^(-17 - b1)`, equal for the two; +0.0 where the mantissa is 0. -/
def Obligations.DecBetaGammaValue : Prop :=
  ∀ (s : State) (c : BetaCode),
    decode (0b101#3 ++ 0#42 ++ c.b1 ++ c.b0) = .decBeta c ∧
    decode (0b110#3 ++ 0#42 ++ c.b1 ++ c.b0) = .decGamma ⟨c.b0, c.b1⟩ ∧ ∃ y : Real64,
    exec (.decBeta c) s = .next { s with outcomes := s.outcomes ++ [.decoded y] } ∧
    exec (.decGamma ⟨c.b0, c.b1⟩) s = .next { s with outcomes := s.outcomes ++ [.decoded y] } ∧
    val64 y = some ((c.b0.toNat : ℚ) * (2 : ℚ) ^ (-17 - (c.b1.toNat : Int))) ∧ (c.b0 = 0 → y = 0#64)

/-- R89: `DEC.DELTA` is the request with `op = 111` and its operand packed by R52; it completes with the pattern of `d0 * 2^(-15 - d1)`;
+0.0 where the mantissa is 0. -/
def Obligations.DecDeltaValue : Prop :=
  ∀ (s : State) (c : DeltaCode), decode (0b111#3 ++ 0#44 ++ c.d1 ++ c.d0) = .decDelta c ∧ ∃ y : Real64,
    exec (.decDelta c) s = .next { s with outcomes := s.outcomes ++ [.decoded y] } ∧
    val64 y = some ((c.d0.toNat : ℚ) * (2 : ℚ) ^ (-15 - (c.d1.toNat : Int))) ∧ (c.d0 = 0 → y = 0#64)

/-- R90: a decoded value is +0.0, just if the mantissa is 0, or a positive normal pattern with its exponent field in the kind's range. -/
def Obligations.DecodedIsZeroOrPositiveNormal : Prop :=
  ∀ (c : Code) (s : State), ∃ y : Real64,
    exec c.decodeInstr s = .next { s with outcomes := s.outcomes ++ [.decoded y] } ∧
    (y = 0#64 ↔ mantissa c = 0) ∧
    (mantissa c ≠ 0 → class64 y = .normal ∧ sign64 y = false ∧
      (c.kind = .alpha → 944 ≤ exp64 y ∧ exp64 y ≤ 1044) ∧
      (c.kind = .beta ∨ c.kind = .gamma → 975 ≤ exp64 y ∧ exp64 y ≤ 1022) ∧
      (c.kind = .delta → 977 ≤ exp64 y ∧ exp64 y ≤ 1022))

/-- R91, R95 (b): decoding is injective on the canonical forms of a kind, and not on all forms. -/
def Obligations.DecodeInjectiveOnCanonicalForms : Prop :=
  (∀ (c d : Code) (s : State), c.kind = d.kind → c.canonical = true → d.canonical = true →
    (∃ y, exec c.decodeInstr s = .next { s with outcomes := s.outcomes ++ [.decoded y] } ∧
      exec d.decodeInstr s = .next { s with outcomes := s.outcomes ++ [.decoded y] }) → c = d) ∧
  (∀ s : State, exec (.decAlpha ⟨2, 0, 0, 0⟩) s = exec (.decAlpha ⟨1, 0, 1, 0⟩) s)

/-! Round trips. -/

/-- R93, alpha: what decode after encode returns, and how far from the operand, in each range. -/
def Obligations.AlphaDecodeAfterEncode : Prop :=
  ∀ (x : Real64) (q : ℚ) (c : AlphaCode), val64 x = some q → 0 < q → encodeAlpha .even x = .ok c →
    ∃ v : ℚ, val64 (decodeAlpha c) = some v ∧ 0 < v ∧
      (2 ^ 22 < q → v = 4194240) ∧
      (1 < q → q ≤ 2 ^ 22 → ∃ (k : Int) (r : Nat), IsClog2 q k ∧ IsRnd .even (q * (2 : ℚ) ^ (16 - k)) r ∧
        v = ((min r 65535 : Nat) : ℚ) * (2 : ℚ) ^ (k - 16) ∧
        (r ≠ 65536 → |q - v| ≤ (2 : ℚ) ^ (k - 17)) ∧
        (r = 65536 → (2 : ℚ) ^ (k - 17) ≤ q - v ∧ q - v ≤ (2 : ℚ) ^ (k - 16))) ∧
      (q = 1 → v = 1 - (2 : ℚ) ^ (-16 : Int)) ∧
      ((2 : ℚ) ^ (-63 : Int) ≤ q → q < 1 → ∃ k : Int, IsNclog2 q k ∧
        v = (2 : ℚ) ^ (-k) - (2 : ℚ) ^ (-16 - k) ∧
        (2 : ℚ) ^ (-16 - k) ≤ q - v ∧ q - v < (2 : ℚ) ^ (-k) + (2 : ℚ) ^ (-16 - k) ∧
        (q - v = (2 : ℚ) ^ (-16 - k) ↔ q = (2 : ℚ) ^ (-k))) ∧
      (q < (2 : ℚ) ^ (-63 : Int) → (∃ r : Nat, IsRnd .even (q * 2 ^ 79) r ∧
        v = (clamp r 1 65535 : ℚ) * (2 : ℚ) ^ (-79 : Int)) ∧ |q - v| < (2 : ℚ) ^ (-79 : Int))

/-- R93, beta, gamma and delta: what decode after encode returns in each range. -/
def Obligations.BetaGammaDeltaDecodeAfterEncode : Prop :=
  (∀ (x : Real64) (u : ℚ) (c : BetaCode), val64 x = some u → u ≠ 0 → encodeBeta .even x = .ok c →
    encodeGamma .even x = .ok ⟨c.b0, c.b1⟩ ∧ decodeGamma ⟨c.b0, c.b1⟩ = decodeBeta c ∧
    ∃ v : ℚ, val64 (decodeBeta c) = some v ∧ 0 < v ∧
      (1 ≤ |u| → v = 1 - (2 : ℚ) ^ (-17 : Int)) ∧
      ((2 : ℚ) ^ (-31 : Int) ≤ |u| → |u| < 1 → ∃ k : Int, IsNclog2 |u| k ∧ v < |u| ∧
        v = (2 : ℚ) ^ (-k) - (2 : ℚ) ^ (-17 - k)) ∧
      (|u| < (2 : ℚ) ^ (-31 : Int) → |(|u| - v)| < (2 : ℚ) ^ (-48 : Int))) ∧
  (∀ (x : Real64) (q : ℚ) (c : DeltaCode), val64 x = some q → 0 < q → encodeDelta .even x = .ok c →
    ∃ v : ℚ, val64 (decodeDelta c) = some v ∧ 0 < v ∧
      (1 ≤ q → v = 1 - (2 : ℚ) ^ (-15 : Int)) ∧
      ((2 : ℚ) ^ (-31 : Int) ≤ q → q < 1 → ∃ k : Int, IsNclog2 q k ∧ v < q ∧
        v = (2 : ℚ) ^ (-k) - (2 : ℚ) ^ (-15 - k)) ∧
      (q < (2 : ℚ) ^ (-31 : Int) → |q - v| < (2 : ℚ) ^ (-46 : Int)))

/-- R94: a saturated form below the exponent's ceiling decodes and re-encodes to the next exponent. -/
def Obligations.ReencodingDrifts : Prop :=
  (∀ k : Nat, k ≤ 62 → encodeAlpha .even (decodeAlpha ⟨65535, BitVec.ofNat 6 k, 0, 0⟩) =
    .ok ⟨65535, BitVec.ofNat 6 (k + 1), 0, 0⟩) ∧
  (∀ k : Nat, k ≤ 30 → encodeBeta .even (decodeBeta ⟨131071, BitVec.ofNat 5 k⟩) =
    .ok ⟨131071, BitVec.ofNat 5 (k + 1)⟩) ∧
  (∀ k : Nat, k ≤ 30 → encodeGamma .even (decodeGamma ⟨131071, BitVec.ofNat 5 k⟩) =
    .ok ⟨131071, BitVec.ofNat 5 (k + 1)⟩) ∧
  (∀ k : Nat, k ≤ 30 → encodeDelta .even (decodeDelta ⟨32767, BitVec.ofNat 5 k⟩) =
    .ok ⟨32767, BitVec.ofNat 5 (k + 1)⟩)

/-- R94: the fixed points of encode after decode, of every kind, and what the remaining canonical alpha forms become. -/
def Obligations.ReencodingFixedPoints : Prop :=
  (∀ c : AlphaCode, encodeAlpha .even (decodeAlpha c) = .ok c ↔
    (c.a1 = 63 ∧ c.a2 = 0 ∧ c.a3 = 0 ∧ c.a0 ≠ 0) ∨
    (c.a1 = 0 ∧ 32769 ≤ c.a0.toNat ∧ c.a2 ≠ 0 ∧ (c.a3 = 0 ∨ c.a2 = 7))) ∧
  (∀ c : BetaCode, encodeBeta .even (decodeBeta c) = .ok c ↔ c.b1 = 31 ∧ c.b0 ≠ 0) ∧
  (∀ c : GammaCode, encodeGamma .even (decodeGamma c) = .ok c ↔ c.g1 = 31 ∧ c.g0 ≠ 0) ∧
  (∀ c : DeltaCode, encodeDelta .even (decodeDelta c) = .ok c ↔ c.d1 = 31 ∧ c.d0 ≠ 0) ∧
  (∀ k : Nat, 1 ≤ k → k ≤ 22 →
    encodeAlpha .even (decodeAlpha ⟨32768, 0,
      BitVec.ofNat 3 (if 8 ≤ k then 7 else k), BitVec.ofNat 4 (if 8 ≤ k then k - 7 else 0)⟩) =
    .ok ⟨65535, 0,
      BitVec.ofNat 3 (if 8 ≤ k - 1 then 7 else k - 1), BitVec.ofNat 4 (if 8 ≤ k - 1 then k - 1 - 7 else 0)⟩)

/-- R95 (a): a decoded value can be fed back to the encoder of its kind, unless the mantissa was 0, when it is `InvalidInput`. -/
def Obligations.DecodedValueIsAcceptedUnlessZero : Prop :=
  ∀ (c : Code) (s : State), ∃ y : Real64,
    exec c.decodeInstr s = .next { s with outcomes := s.outcomes ++ [.decoded y] } ∧
    ∀ t : State,
      (mantissa c = 0 →
        exec (c.kind.encodeInstr y) t = .next { t with outcomes := t.outcomes ++ [.invalidInput] }) ∧
      (mantissa c ≠ 0 → ∃ d : Code, d.kind = c.kind ∧
        exec (c.kind.encodeInstr y) t = .next { t with outcomes := t.outcomes ++ [.encoded d] })

/-- R95 (c): decode after encode is non-decreasing in the magnitude of the operand, for each kind and both values of `TIE`. -/
def Obligations.RoundTripIsMonotone : Prop :=
  ∀ (tie : Tie) (x x' : Real64) (q q' : ℚ), val64 x = some q → val64 x' = some q' → q ≠ 0 → |q| ≤ |q'| →
    (∀ c c', encodeAlpha tie x = .ok c → encodeAlpha tie x' = .ok c' →
      ∃ v v', val64 (decodeAlpha c) = some v ∧ val64 (decodeAlpha c') = some v' ∧ v ≤ v') ∧
    (∀ c c', encodeBeta tie x = .ok c → encodeBeta tie x' = .ok c' →
      ∃ v v', val64 (decodeBeta c) = some v ∧ val64 (decodeBeta c') = some v' ∧ v ≤ v') ∧
    (∀ c c', encodeGamma tie x = .ok c → encodeGamma tie x' = .ok c' →
      ∃ v v', val64 (decodeGamma c) = some v ∧ val64 (decodeGamma c') = some v' ∧ v ≤ v') ∧
    (∀ c c', encodeDelta tie x = .ok c → encodeDelta tie x' = .ok c' →
      ∃ v v', val64 (decodeDelta c) = some v ∧ val64 (decodeDelta c') = some v' ∧ v ≤ v')

/-- R93 and conflict C3: the document's accuracy property fails: an alpha of at most 2^22 is lost by more than a quarter in absolute value,
far more than one step. -/
def Obligations.AccuracyPropertyFails : Prop :=
  ∃ (x : Real64) (q : ℚ) (c : AlphaCode) (v : ℚ), val64 x = some q ∧ 0 < q ∧ q ≤ 2 ^ 22 ∧
    encodeAlpha .even x = .ok c ∧ val64 (decodeAlpha c) = some v ∧ 1 / 4 < |q - v| ∧
    (2 : ℚ) ^ (-16 - (c.a1.toNat : Int) + (c.a2.toNat : Int) + (c.a3.toNat : Int)) < |q - v|

/-! The register transport, host programs and invariants. -/

/-- R29, R115, log 2: the state after reset: the block has nothing, the host has issued nothing, the transport has received nothing (the
model's choice of log 2). -/
def Obligations.ResetHoldsNothing : Prop :=
  State.reset = { pending := [], outcomes := [], reads := [], transport := { received := [], applied := [] }, freeIndex := 0 } ∧
  State.reset.inv = true

/-- R75, R90, R31: every step keeps the invariant: the transport's memories stay in canonical form and every response delivered is one the
block can give. -/
def Obligations.StepKeepsTheInvariant : Prop :=
  ∀ s t : State, s.inv = true → step s = .next t → t.inv = true

/-- R57, R26, log 8: a well-formed host program only ever stops at a `DEC` line that names an `InvalidInput` outcome, is never refused, and
stays well-formed. -/
def Obligations.WellFormedProgramStopsOnlyOnInvalidInput : Prop :=
  ∀ (known : List ResultType) (s : State), s.wellTyped known = true →
    (∀ f, step s = .fault f → f = .nothingToPass ∧
      ∃ k n rest, s.pending = .decodeResult k n :: rest ∧ s.outcomes[n]? = some .invalidInput) ∧
    (∀ r, step s ≠ .refused r) ∧
    (∀ t, step s = .next t → ∃ known', t.wellTyped known' = true)

/-- R30, R32, R117: only `IoUpdate` changes what the device uses, only `WriteByte` and `IoUpdate` what it has received, only `ReadByte` what
the host has read; no request of the block touches any of them. -/
def Obligations.OnlyTransportCallsChangeTheTransport : Prop :=
  ∀ s t : State, step s = .next t →
    (t.transport.applied ≠ s.transport.applied → ∃ rest, s.pending = .ioUpdate :: rest) ∧
    (t.transport.received ≠ s.transport.received →
      (∃ a b rest, s.pending = .writeByte a b :: rest) ∨ ∃ rest, s.pending = .ioUpdate :: rest) ∧
    (t.reads ≠ s.reads → ∃ a rest, s.pending = .readByte a :: rest)

/-- R32, R37, R119: bytes written one by one leave what the device uses as it was, until `IoUpdate` makes all of them effective at once. -/
def Obligations.WritesTakeEffectTogetherAtTheCommit : Prop :=
  ∀ (s : State) (ws : List (Addr × Byte)) (rest : List HostAction),
    s.pending = ws.map (fun w => .writeByte w.1 w.2) ++ .ioUpdate :: rest →
    Memory.wf s.transport.received = true → Memory.wf s.transport.applied = true →
    (∀ k, k ≤ ws.length → ∃ t : State, core.run k s = .next t ∧ t.transport.applied = s.transport.applied ∧
      t.outcomes = s.outcomes) ∧
    ∃ t : State, core.run (ws.length + 1) s = .next t ∧ t.pending = rest ∧ t.transport.received = [] ∧
      ∀ a : Addr, Memory.read t.transport.applied a.toNat =
        (((ws.reverse.find? (fun w => w.1 == a)).map Prod.snd).or
          (Memory.read s.transport.received a.toNat)).or (Memory.read s.transport.applied a.toNat)

/-- R31, U6, log 5, log 6: what `ReadByte` returns: before the commit of a written byte either of the two, otherwise the applied byte; a
never-written register gives a free value (log 5); that a read changes nothing of the device is the model's reading (log 6). -/
def Obligations.ReadByteReturnsOneOfTheTwo : Prop :=
  ∀ (s : State) (a : Addr) (rest : List HostAction), s.pending = .readByte a :: rest →
    ∃ b : Byte, step s = .next { s with pending := rest, reads := s.reads ++ [b], freeIndex := s.freeIndex + 1 } ∧
      (∀ w v, Memory.read s.transport.received a.toNat = some w → Memory.read s.transport.applied a.toNat = some v →
        b = w ∨ b = v) ∧
      (∀ v, Memory.read s.transport.received a.toNat = none → Memory.read s.transport.applied a.toNat = some v → b = v)

/-- R117: a host that lets an `IoUpdate` follow every `WriteByte` leaves nothing received and uncommitted when its program has ended. -/
def Obligations.CommittedProgramLeavesNothingWaiting : Prop :=
  ∀ s t : State, everyWriteCommitted s.pending = true → s.transport.received = [] →
    core.run s.pending.length s = .next t → t.pending = [] ∧ t.transport.received = []

/-- R119: a host that does not commit in the middle of writing a coefficient never lets the device act on a part of it: at every `IoUpdate`
none or all of the coefficient's bytes have been received. -/
def Obligations.CoefficientCommittedWhole : Prop :=
  ∀ (batch : List Addr) (s t : State) (k : Nat) (rest : List HostAction),
    commitsWhole batch [] s.pending = true → Memory.wf s.transport.received = true →
    (∀ a ∈ batch, Memory.read s.transport.received a.toNat = none) →
    core.run k s = .next t → t.pending = .ioUpdate :: rest →
    (∀ a ∈ batch, Memory.read t.transport.received a.toNat = none) ∨
    (∀ a ∈ batch, (Memory.read t.transport.received a.toNat).isSome = true)

/-- R107: a host that writes nothing of a coefficient, as it must after `InvalidInput`, leaves the coefficient's bytes in the device as they
were, however long its program runs. -/
def Obligations.NothingWrittenMeansNothingChanged : Prop :=
  ∀ (batch : List Addr) (s t : State) (k : Nat),
    writesNone batch s.pending = true → s.inv = true →
    (∀ a ∈ batch, Memory.read s.transport.received a.toNat = none) →
    core.run k s = .next t →
    ∀ a ∈ batch, Memory.read t.transport.applied a.toNat = Memory.read s.transport.applied a.toNat ∧
      Memory.read t.transport.received a.toNat = none
end

