-- ==== Sys2Proof/Laws/Arith.lean ====
section
/-! SUPPORT. What the exact arithmetic computes, in the spec's own inequalities over the rationals (spec/00_scope.md R9 to R14): the
integer evaluation of spec/40_encode.md R76 meets the definitions of R10, R12 and R13. -/

namespace Sys2Proof.Machine

/-! Clamping (R10). -/

theorem clamp_lower {v lo hi : Int} (h : lo ≤ hi) : lo ≤ clamp v lo hi := by
  unfold clamp; split <;> [exact le_rfl; skip]; split <;> omega

theorem clamp_upper {v lo hi : Int} (h : lo ≤ hi) : clamp v lo hi ≤ hi := by
  unfold clamp; split <;> [exact h; skip]; split <;> omega

theorem clamp_of_mem {v lo hi : Int} (h₁ : lo ≤ v) (h₂ : v ≤ hi) : clamp v lo hi = v := by
  unfold clamp; split <;> [omega; skip]; split <;> omega

theorem clamp_of_le {v lo hi : Int} (h : lo ≤ hi) (hv : v ≤ lo) : clamp v lo hi = lo := by
  unfold clamp; split <;> [rfl; skip]; split <;> omega

theorem clamp_of_ge {v lo hi : Int} (h : lo ≤ hi) (hv : hi ≤ v) : clamp v lo hi = hi := by
  unfold clamp; split <;> [omega; skip]; split <;> omega

/-! Dyadic values. -/

theorem two_zpow_pos (n : Int) : (0 : ℚ) < 2 ^ n := zpow_pos (by norm_num) n

theorem two_zpow_add (m n : Int) : (2 : ℚ) ^ (m + n) = 2 ^ m * 2 ^ n := zpow_add₀ (by norm_num) m n

theorem two_zpow_lt {m n : Int} : (2 : ℚ) ^ m < 2 ^ n ↔ m < n := zpow_lt_zpow_iff_right₀ (by norm_num)

theorem two_zpow_le {m n : Int} : (2 : ℚ) ^ m ≤ 2 ^ n ↔ m ≤ n := zpow_le_zpow_iff_right₀ (by norm_num)

theorem toRat_pos {q : Dyad} (h : 0 < q.sig) : 0 < q.toRat :=
  mul_pos (by exact_mod_cast h) (two_zpow_pos _)

@[simp] theorem scale_sig (q : Dyad) (n : Int) : (scale q n).sig = q.sig := rfl

theorem toRat_scale (q : Dyad) (n : Int) : (scale q n).toRat = q.toRat * 2 ^ n := by
  simp only [Dyad.toRat, scale, two_zpow_add, mul_assoc]

/-- A dyadic with a natural exponent is a natural number. -/
theorem toRat_ofNat (a n : Nat) : (⟨a, .ofNat n⟩ : Dyad).toRat = ((a * 2 ^ n : Nat) : ℚ) := by
  simp [Dyad.toRat]

/-- A dyadic with a negative exponent is a quotient. -/
theorem toRat_negSucc (a n : Nat) :
    (⟨a, .negSucc n⟩ : Dyad).toRat = (a : ℚ) / ((2 ^ (n + 1) : Nat) : ℚ) := by
  simp [Dyad.toRat, zpow_negSucc, div_eq_mul_inv]

/-! Comparison with one. -/

theorem belowOne_iff (q : Dyad) : belowOne q = true ↔ q.toRat < 1 := by
  obtain ⟨a, n | n⟩ := q
  · rw [toRat_ofNat]; simp only [belowOne, decide_eq_true_eq]; exact_mod_cast Iff.rfl
  · rw [toRat_negSucc, div_lt_one (by positivity)]
    simp only [belowOne, decide_eq_true_eq]; exact_mod_cast Iff.rfl

theorem aboveOne_iff (q : Dyad) : aboveOne q = true ↔ 1 < q.toRat := by
  obtain ⟨a, n | n⟩ := q
  · rw [toRat_ofNat]; simp only [aboveOne, decide_eq_true_eq]; exact_mod_cast Iff.rfl
  · rw [toRat_negSucc, one_lt_div (by positivity)]
    simp only [aboveOne, decide_eq_true_eq]; exact_mod_cast Iff.rfl

/-! Logarithm ceilings (R12). -/

theorem log2_bounds {a : Nat} (h : 0 < a) : 2 ^ a.log2 ≤ a ∧ a < 2 ^ (a.log2 + 1) :=
  ⟨Nat.log2_self_le h.ne', Nat.lt_log2_self⟩

/-- `2^(log2 sig + exp) ≤ q < 2^(log2 sig + exp + 1)`. -/
theorem toRat_bounds {q : Dyad} (h : 0 < q.sig) :
    (2 : ℚ) ^ (q.sig.log2 + q.exp) ≤ q.toRat ∧ q.toRat < (2 : ℚ) ^ (q.sig.log2 + q.exp + 1) := by
  obtain ⟨h₁, h₂⟩ := log2_bounds h
  have h₁' : ((2 : ℚ) ^ q.sig.log2) ≤ q.sig := by exact_mod_cast h₁
  have h₂' : (q.sig : ℚ) < (2 : ℚ) ^ (q.sig.log2 + 1) := by exact_mod_cast h₂
  have e₂ : (2 : ℚ) ^ ((q.sig.log2 : Int) + q.exp + 1) = 2 ^ (q.sig.log2 + 1) * 2 ^ q.exp := by
    rw [show (q.sig.log2 : Int) + q.exp + 1 = ((q.sig.log2 + 1 : Nat) : Int) + q.exp by push_cast; ring,
      two_zpow_add, zpow_natCast]
  rw [e₂, two_zpow_add, zpow_natCast]
  exact ⟨mul_le_mul_of_nonneg_right h₁' (two_zpow_pos _).le, mul_lt_mul_of_pos_right h₂' (two_zpow_pos _)⟩

theorem IsNclog2.unique {q : ℚ} {j k : Int} (hj : IsNclog2 q j) (hk : IsNclog2 q k) : j = k := by
  have h₁ := two_zpow_lt.mp (hj.1.trans_lt hk.2)
  have h₂ := two_zpow_lt.mp (hk.1.trans_lt hj.2)
  omega

theorem IsClog2.unique {q : ℚ} {j k : Int} (hj : IsClog2 q j) (hk : IsClog2 q k) : j = k := by
  have h₁ := two_zpow_lt.mp (hj.1.trans_le hk.2)
  have h₂ := two_zpow_lt.mp (hk.1.trans_le hj.2)
  omega

theorem nclog2_spec {q : Dyad} (h : 0 < q.sig) : IsNclog2 q.toRat (nclog2 q) := by
  have hb := toRat_bounds h
  refine ⟨?_, ?_⟩
  · simpa [nclog2] using hb.1
  · rw [show 1 - nclog2 q = q.sig.log2 + q.exp + 1 by simp [nclog2]; ring]; exact hb.2

theorem clog2_spec {q : Dyad} (h : 0 < q.sig) : IsClog2 q.toRat (clog2 q) := by
  have hb := toRat_bounds h
  by_cases hp : q.sig = 2 ^ q.sig.log2
  · have he : q.toRat = 2 ^ ((q.sig.log2 : Int) + q.exp) := by
      rw [two_zpow_add, zpow_natCast, Dyad.toRat]; congr 1; exact_mod_cast hp
    rw [show clog2 q = q.sig.log2 + q.exp from if_pos hp]
    exact ⟨by rw [he]; exact two_zpow_lt.mpr (by omega), he.le⟩
  · rw [show clog2 q = q.sig.log2 + q.exp + 1 from if_neg hp]
    refine ⟨?_, hb.2.le⟩
    have h₁ : ((2 : ℚ) ^ q.sig.log2) < q.sig := by
      exact_mod_cast lt_of_le_of_ne (log2_bounds h).1 (Ne.symm hp)
    rw [add_sub_cancel_right, two_zpow_add, zpow_natCast]
    exact mul_lt_mul_of_pos_right h₁ (two_zpow_pos _)

/-! Reading a logarithm ceiling off an inequality. -/

theorem IsNclog2.le {q : ℚ} {k n : Int} (h : IsNclog2 q k) (hq : (2 : ℚ) ^ (-n) ≤ q) : k ≤ n := by
  have := two_zpow_lt.mp (hq.trans_lt h.2); omega

theorem IsNclog2.ge {q : ℚ} {k n : Int} (h : IsNclog2 q k) (hq : q < (2 : ℚ) ^ (1 - n)) : n ≤ k := by
  have := two_zpow_lt.mp (h.1.trans_lt hq); omega

theorem IsClog2.le {q : ℚ} {k n : Int} (h : IsClog2 q k) (hq : q ≤ (2 : ℚ) ^ n) : k ≤ n := by
  have := two_zpow_lt.mp (h.1.trans_le hq); omega

theorem IsClog2.ge {q : ℚ} {k n : Int} (h : IsClog2 q k) (hq : (2 : ℚ) ^ (n - 1) < q) : n ≤ k := by
  have := two_zpow_lt.mp (hq.trans_le h.2); omega

/-- Scaled by `2^(b + nclog2 q)`, a value lies in `[2^b, 2^(b+1))`: the mantissa of R72 to R74 saturates. -/
theorem IsNclog2.scaled {q : ℚ} {k : Int} (h : IsNclog2 q k) (b : Int) :
    (2 : ℚ) ^ b ≤ q * 2 ^ (b + k) ∧ q * 2 ^ (b + k) < 2 ^ (b + 1) := by
  have hp := two_zpow_pos (b + k)
  constructor
  · calc (2 : ℚ) ^ b = 2 ^ (-k) * 2 ^ (b + k) := by rw [← two_zpow_add]; congr 1; ring
      _ ≤ _ := mul_le_mul_of_nonneg_right h.1 hp.le
  · calc q * 2 ^ (b + k) < 2 ^ (1 - k) * 2 ^ (b + k) := mul_lt_mul_of_pos_right h.2 hp
      _ = _ := by rw [← two_zpow_add]; congr 1; ring

/-- Scaled by `2^(b - clog2 q)`, a value lies in `(2^(b-1), 2^b]`: the mantissa of R72 case B is normalised. -/
theorem IsClog2.scaled {q : ℚ} {k : Int} (h : IsClog2 q k) (b : Int) :
    (2 : ℚ) ^ (b - 1) < q * 2 ^ (b - k) ∧ q * 2 ^ (b - k) ≤ 2 ^ b := by
  have hp := two_zpow_pos (b - k)
  constructor
  · calc (2 : ℚ) ^ (b - 1) = 2 ^ (k - 1) * 2 ^ (b - k) := by rw [← two_zpow_add]; congr 1; ring
      _ < _ := mul_lt_mul_of_pos_right h.1 hp
  · calc q * 2 ^ (b - k) ≤ 2 ^ k * 2 ^ (b - k) := mul_le_mul_of_nonneg_right h.2 hp.le
      _ = _ := by rw [← two_zpow_add]; congr 1; ring

/-! Rounding (R13). -/

/-- Two integers nearest to one rational, rounded by one tie rule, are the same. -/
theorem IsRnd.unique {tie : Tie} {q : ℚ} {r t : Nat} (hr : IsRnd tie q r) (ht : IsRnd tie q t) : r = t := by
  obtain ⟨hr, hr'⟩ := hr
  obtain ⟨ht, ht'⟩ := ht
  have key : ∀ {a b : Nat}, |(a : ℚ) - q| ≤ 1 / 2 → |(b : ℚ) - q| ≤ 1 / 2 → a < b →
      b = a + 1 ∧ q = a + 1 / 2 := by
    intro a b ha hb hab
    rw [abs_le] at ha hb
    have hle : (b : ℚ) ≤ ((a + 1 : Nat) : ℚ) := by push_cast; linarith [ha.1, ha.2, hb.1, hb.2]
    have hb' : b = a + 1 := le_antisymm (by exact_mod_cast hle) hab
    subst hb'
    refine ⟨rfl, ?_⟩
    push_cast at hb
    linarith [ha.1, ha.2, hb.1, hb.2]
  rcases lt_trichotomy r t with h | h | h
  · obtain ⟨rfl, hq⟩ := key hr ht h
    have e₁ := hr' (by rw [hq]; norm_num [abs_of_nonneg])
    have e₂ := ht' (by rw [hq]; push_cast; ring_nf; norm_num [abs_of_nonneg])
    cases tie
    · simp only at e₁ e₂; omega
    · simp only at e₁; linarith
  · exact h
  · obtain ⟨rfl, hq⟩ := key ht hr h
    have e₁ := ht' (by rw [hq]; norm_num [abs_of_nonneg])
    have e₂ := hr' (by rw [hq]; push_cast; ring_nf; norm_num [abs_of_nonneg])
    cases tie
    · simp only at e₁ e₂; omega
    · simp only at e₁; linarith

theorem isRnd_natCast (tie : Tie) (r : Nat) : IsRnd tie (r : ℚ) r := by
  refine ⟨by norm_num, fun h => ?_⟩
  norm_num at h

theorem roundQuotient_spec (tie : Tie) (a : Nat) {d : Nat} (hd : 0 < d) :
    IsRnd tie ((a : ℚ) / d) (roundQuotient tie a d) := by
  have hd' : (0 : ℚ) < d := by exact_mod_cast hd
  have hq : (a : ℚ) / d = (a / d : Nat) + ((a % d : Nat) : ℚ) / d := by
    rw [div_eq_iff hd'.ne', add_mul, div_mul_cancel₀ _ hd'.ne']
    exact_mod_cast (Nat.div_add_mod' a d).symm
  have hlt : a % d < d := Nat.mod_lt a hd
  generalize hr : a % d = r at *
  generalize ht : a / d = t at *
  have hr0 : (0 : ℚ) ≤ (r : ℚ) / d := by positivity
  have hr1 : (r : ℚ) / d < 1 := (div_lt_one hd').mpr (by exact_mod_cast hlt)
  rw [hq]
  unfold roundQuotient
  simp only [hr, ht]
  split
  · next h =>
    have : (r : ℚ) / d < 1 / 2 := by
      rw [div_lt_div_iff₀ hd' (by norm_num)]; exact_mod_cast (by omega : r * 2 < 1 * d)
    have e : |(t : ℚ) - (t + (r : ℚ) / d)| = (r : ℚ) / d := by
      rw [sub_add_cancel_left, abs_neg, abs_of_nonneg hr0]
    exact ⟨by rw [e]; exact this.le, fun h' => absurd (e ▸ h') this.ne⟩
  · split
    · next h =>
      have : 1 / 2 < (r : ℚ) / d := by
        rw [div_lt_div_iff₀ (by norm_num) hd']; exact_mod_cast (by omega : 1 * d < r * 2)
      have e : |((t + 1 : Nat) : ℚ) - (t + (r : ℚ) / d)| = 1 - (r : ℚ) / d := by
        rw [show ((t + 1 : Nat) : ℚ) - (t + (r : ℚ) / d) = 1 - (r : ℚ) / d by push_cast; ring,
          abs_of_nonneg (by linarith)]
      exact ⟨by rw [e]; linarith, fun h' => absurd (e ▸ h') (by linarith)⟩
    · next h₁ h₂ =>
      have : (r : ℚ) / d = 1 / 2 := by
        rw [div_eq_div_iff hd'.ne' (by norm_num)]; exact_mod_cast (by omega : r * 2 = 1 * d)
      rw [this]
      cases tie
      · refine ⟨?_, fun _ => by simp only; omega⟩
        rcases Nat.mod_two_eq_zero_or_one t with h | h
        · simp only [h]; rw [show ((t + 0 : Nat) : ℚ) - (t + 1 / 2) = -(1 / 2) by push_cast; ring]
          norm_num [abs_of_nonneg]
        · simp only [h]; rw [show ((t + 1 : Nat) : ℚ) - (t + 1 / 2) = 1 / 2 by push_cast; ring]
          norm_num [abs_of_nonneg]
      · refine ⟨?_, fun _ => by push_cast; norm_num⟩
        simp only
        rw [show ((t + 1 : Nat) : ℚ) - (t + 1 / 2) = 1 / 2 by push_cast; ring]
        norm_num [abs_of_nonneg]

theorem rnd_spec (tie : Tie) (q : Dyad) : IsRnd tie q.toRat (rnd tie q) := by
  obtain ⟨a, n | n⟩ := q
  · rw [toRat_ofNat]; exact isRnd_natCast tie _
  · rw [toRat_negSucc]; exact roundQuotient_spec tie a (by positivity)

/-- Rounding keeps order with natural bounds. -/
theorem IsRnd.le_of_le {tie : Tie} {q : ℚ} {r n : Nat} (h : IsRnd tie q r) (hq : q ≤ n) : r ≤ n := by
  by_contra hlt
  have h₁ : ((n + 1 : Nat) : ℚ) ≤ r := by exact_mod_cast not_le.mp hlt
  have h₂ := (abs_le.mp h.1).2
  push_cast at h₁
  linarith

theorem IsRnd.ge_of_ge {tie : Tie} {q : ℚ} {r n : Nat} (h : IsRnd tie q r) (hq : (n : ℚ) ≤ q) : n ≤ r := by
  by_contra hlt
  have h₁ : ((r + 1 : Nat) : ℚ) ≤ n := by exact_mod_cast not_le.mp hlt
  have h₂ := (abs_le.mp h.1).1
  push_cast at h₁
  linarith

theorem rnd_scale (tie : Tie) (q : Dyad) (n : Int) : IsRnd tie (q.toRat * 2 ^ n) (rnd tie (scale q n)) := by
  rw [← toRat_scale]; exact rnd_spec tie _

/-- A mantissa whose scaled value reaches past the maximum is the maximum. -/
theorem mantissa_saturates {tie : Tie} {q : Dyad} {n hi : Int} {top : Nat} (hhi : hi = top - 1) (h₁ : 1 ≤ hi)
    (h : (top : ℚ) ≤ q.toRat * 2 ^ n) : clamp (rnd tie (scale q n)) 1 hi = hi := by
  have := (rnd_scale tie q n).ge_of_ge h
  exact clamp_of_ge h₁ (by omega)

end Sys2Proof.Machine
end

