-- ==== Sys2Proof/Laws/Operands.lean ====
section
/-! SUPPORT. What reading a binary64 pattern, the operand check, and writing a binary64 pattern do (spec/00_scope.md R15, R16,
spec/40_encode.md R65). -/

namespace Sys2Proof.Machine

theorem exp64_lt (x : Real64) : exp64 x < 2048 := (x.extractLsb' 52 11).isLt

theorem frac64_lt (x : Real64) : frac64 x < 2 ^ 52 := (x.extractLsb' 0 52).isLt

/-! Classes (R15). -/

theorem class64_normal_iff (x : Real64) : class64 x = .normal ↔ exp64 x ≠ 0 ∧ exp64 x ≠ 2047 := by
  unfold class64; split_ifs <;> simp_all

theorem class64_subnormal_iff (x : Real64) : class64 x = .subnormal ↔ exp64 x = 0 ∧ frac64 x ≠ 0 := by
  unfold class64; split_ifs <;> simp_all

theorem class64_zero_iff (x : Real64) : class64 x = .zero ↔ exp64 x = 0 ∧ frac64 x = 0 := by
  unfold class64; split_ifs <;> simp_all

/-- Whether a pattern stands for a real number other than zero. -/
abbrev FiniteNonzero (x : Real64) : Prop := class64 x = .normal ∨ class64 x = .subnormal

theorem mag64_sig_pos {x : Real64} (h : FiniteNonzero x) : 0 < (mag64 x).sig := by
  rcases h with h | h
  · rw [class64_normal_iff] at h; simp [mag64, h.1]
  · rw [class64_subnormal_iff] at h; simp only [mag64, h.1, if_true]; omega

theorem val64_of_finiteNonzero {x : Real64} (h : FiniteNonzero x) :
    val64 x = some ((if sign64 x then -1 else 1) * (mag64 x).toRat) := by
  rcases h with h | h
  · have he := ((class64_normal_iff x).mp h).1
    simp only [val64, h, mag64, he, if_false, Dyad.toRat]; push_cast; congr 1; ring
  · have he := ((class64_subnormal_iff x).mp h).1
    simp only [val64, h, mag64, he, if_true, Dyad.toRat]; congr 1; ring

/-- A pattern with a value other than zero is finite and nonzero, and its magnitude is the value's. -/
theorem finiteNonzero_of_val64 {x : Real64} {q : ℚ} (h : val64 x = some q) (hq : q ≠ 0) :
    FiniteNonzero x ∧ (mag64 x).toRat = |q| ∧ (sign64 x = true ↔ q < 0) := by
  have hf : FiniteNonzero x := by
    cases hc : class64 x <;> simp_all [val64, FiniteNonzero]
  have hp := toRat_pos (mag64_sig_pos hf)
  rw [val64_of_finiteNonzero hf, Option.some.injEq] at h
  refine ⟨hf, ?_⟩
  cases hs : sign64 x
  · simp only [hs, Bool.false_eq_true, if_false, one_mul] at h
    subst h
    exact ⟨(abs_of_pos hp).symm, by simpa using hp.le⟩
  · simp only [hs, if_true, neg_one_mul] at h
    subst h
    exact ⟨by rw [abs_neg, abs_of_pos hp], by simpa using hp⟩

/-! The operand check (R65). -/

theorem front_eq (k : CoefKind) (x : Real64) : front k x =
    if FiniteNonzero x ∧ ¬(sign64 x = true ∧ needsPositive k = true) then .ok (mag64 x) else .invalidInput := by
  unfold front FiniteNonzero
  generalize class64 x = c
  generalize sign64 x = s
  generalize needsPositive k = n
  generalize mag64 x = m
  cases c <;> cases s <;> cases n <;> rfl

theorem front_of_pos {x : Real64} {q : ℚ} (k : CoefKind) (h : val64 x = some q) (hq : 0 < q) :
    front k x = .ok (mag64 x) ∧ (mag64 x).toRat = q ∧ 0 < (mag64 x).sig := by
  obtain ⟨hf, hm, hs⟩ := finiteNonzero_of_val64 h hq.ne'
  refine ⟨?_, by rw [hm, abs_of_pos hq], mag64_sig_pos hf⟩
  rw [front_eq, if_pos ⟨hf, fun hc => absurd (hs.mp hc.1) (by linarith)⟩]

theorem front_of_ne_zero {x : Real64} {q : ℚ} {k : CoefKind} (hk : needsPositive k = false) (h : val64 x = some q)
    (hq : q ≠ 0) : front k x = .ok (mag64 x) ∧ (mag64 x).toRat = |q| ∧ 0 < (mag64 x).sig := by
  obtain ⟨hf, hm, _⟩ := finiteNonzero_of_val64 h hq
  exact ⟨by rw [front_eq, if_pos ⟨hf, by simp [hk]⟩], hm, mag64_sig_pos hf⟩

/-- Whatever the operand check returns is a positive magnitude of the operand. -/
theorem front_ok {k : CoefKind} {x : Real64} {q : Dyad} (h : front k x = .ok q) :
    FiniteNonzero x ∧ ¬(sign64 x = true ∧ needsPositive k = true) ∧ q = mag64 x ∧ 0 < q.sig := by
  rw [front_eq] at h
  split at h
  · next hc => cases h; exact ⟨hc.1, hc.2, rfl, mag64_sig_pos hc.1⟩
  · cases h

/-! Writing a real value (R16). -/

/-- A bit of `{s, e, f}` at the port is that bit of the concatenation. -/
theorem getLsbD_fields (s : BitVec 1) (e : BitVec 11) (f : BitVec 52) (i : Nat) :
    BitVec.getLsbD (w := 64) (s ++ e ++ f) i =
      if i < 52 then f.getLsbD i else if i - 52 < 11 then e.getLsbD (i - 52) else s.getLsbD (i - 52 - 11) := by
  show BitVec.getLsbD (w := 1 + 11 + 52) (s ++ e ++ f) i = _
  rw [BitVec.getLsbD_append, BitVec.getLsbD_append]

theorem exp64_fields (s : BitVec 1) (e : BitVec 11) (f : BitVec 52) : exp64 (s ++ e ++ f) = e.toNat := by
  unfold exp64
  congr 1
  ext i hi
  rw [BitVec.getElem_extractLsb', getLsbD_fields, if_neg (by omega), if_pos (by omega), Nat.add_sub_cancel_left,
    BitVec.getLsbD_eq_getElem hi]

theorem frac64_fields (s : BitVec 1) (e : BitVec 11) (f : BitVec 52) : frac64 (s ++ e ++ f) = f.toNat := by
  unfold frac64
  congr 1
  ext i hi
  rw [BitVec.getElem_extractLsb', getLsbD_fields, if_pos (by omega), Nat.zero_add, BitVec.getLsbD_eq_getElem hi]

theorem sign64_fields (s : BitVec 1) (e : BitVec 11) (f : BitVec 52) : sign64 (s ++ e ++ f) = s.getLsbD 0 := by
  rw [sign64, getLsbD_fields, if_neg (by omega), if_neg (by omega)]

@[simp] theorem enc64_zero (n : Int) : enc64 0 n = 0#64 := rfl

/-- Where R16 calls it exact, `enc64(m, n)` is the positive normal pattern of `m * 2^n`. -/
theorem enc64_spec {m : Nat} {n : Int} (hm : m ≠ 0) (hL : m < 2 ^ 53) (h₁ : 1 ≤ 1023 + (m.log2 : Int) + n)
    (h₂ : 1023 + (m.log2 : Int) + n ≤ 2046) :
    class64 (enc64 m n) = .normal ∧ sign64 (enc64 m n) = false ∧
      (exp64 (enc64 m n) : Int) = 1023 + m.log2 + n ∧ (mag64 (enc64 m n)).toRat = (m : ℚ) * 2 ^ n := by
  obtain ⟨hb₁, hb₂⟩ := log2_bounds (Nat.pos_of_ne_zero hm)
  have hl : m.log2 ≤ 52 := by
    by_contra hc
    have : 2 ^ 53 ≤ 2 ^ m.log2 := Nat.pow_le_pow_right (by norm_num) (by omega)
    omega
  have hx : enc64 m n = 0#1 ++ BitVec.ofNat 11 (1023 + (m.log2 : Int) + n).toNat ++
      BitVec.ofNat 52 ((m - 2 ^ m.log2) * 2 ^ (52 - m.log2)) := by simp [enc64, hm]
  have he : exp64 (enc64 m n) = (1023 + (m.log2 : Int) + n).toNat := by
    rw [hx, exp64_fields, BitVec.toNat_ofNat, Nat.mod_eq_of_lt (by omega)]
  have hpow : 2 ^ m.log2 * 2 ^ (52 - m.log2) = 2 ^ 52 := by rw [← pow_add]; congr 1; omega
  have hf : frac64 (enc64 m n) = (m - 2 ^ m.log2) * 2 ^ (52 - m.log2) := by
    rw [hx, frac64_fields, BitVec.toNat_ofNat, Nat.mod_eq_of_lt]
    calc (m - 2 ^ m.log2) * 2 ^ (52 - m.log2) < 2 ^ m.log2 * 2 ^ (52 - m.log2) :=
          Nat.mul_lt_mul_of_pos_right (by rw [pow_succ] at hb₂; omega) (by positivity)
      _ = 2 ^ 52 := hpow
  refine ⟨?_, ?_, by rw [he]; omega, ?_⟩
  · rw [class64_normal_iff, he]; omega
  · rw [hx, sign64_fields]; rfl
  · have hsig : 2 ^ 52 + frac64 (enc64 m n) = m * 2 ^ (52 - m.log2) := by
      rw [hf, ← hpow, ← Nat.add_mul]; congr 1; omega
    have : exp64 (enc64 m n) ≠ 0 := by rw [he]; omega
    simp only [mag64, this, if_false, Dyad.toRat, hsig]
    push_cast
    rw [he, mul_assoc, ← zpow_natCast, ← two_zpow_add]
    congr 2
    rw [Int.toNat_of_nonneg (by omega)]
    push_cast [Nat.cast_sub hl]
    ring

/-- The value of `enc64(m, n)` where R16 calls it exact, zero included. -/
theorem val64_enc64 {m : Nat} {n : Int} (hL : m < 2 ^ 53) (h₁ : m ≠ 0 → 1 ≤ 1023 + (m.log2 : Int) + n)
    (h₂ : 1023 + (m.log2 : Int) + n ≤ 2046) : val64 (enc64 m n) = some ((m : ℚ) * 2 ^ n) := by
  by_cases hm : m = 0
  · subst hm
    have : class64 (0#64) = .zero := by decide
    simp [val64, this]
  · obtain ⟨hc, hs, -, hv⟩ := enc64_spec hm hL (h₁ hm) h₂
    rw [val64_of_finiteNonzero (.inl hc), hs, hv]; simp

end Sys2Proof.Machine
end

