-- ==== Sys2Proof/Laws/Fields.lean ====
section
/-! SUPPORT. The fields of an encode result are the clamped integers of the formulas, no bit of them lost
(spec/40_encode.md R66 to R69, R71). -/

namespace Sys2Proof.Machine

theorem toNat_ofInt_of_lt {w : Nat} {v : Int} (h₀ : 0 ≤ v) (h : v < 2 ^ w) : ((BitVec.ofInt w v).toNat : Int) = v := by
  rw [BitVec.toNat_ofInt, Int.toNat_of_nonneg (Int.emod_nonneg _ (by positivity))]
  exact Int.emod_eq_of_lt h₀ (by exact_mod_cast h)

/-- The downward exponent of alpha (R66). -/
def alphaDown (q : Dyad) : Int := if belowOne q then clamp (nclog2 q) 0 63 else 0

/-- The upward exponent of alpha (R66). -/
def alphaUp (q : Dyad) : Int := if aboveOne q then clamp (clog2 q) 0 22 else 0

theorem alphaDown_bounds (q : Dyad) : 0 ≤ alphaDown q ∧ alphaDown q ≤ 63 := by
  unfold alphaDown; split
  · exact ⟨clamp_lower (by norm_num), clamp_upper (by norm_num)⟩
  · norm_num

theorem alphaUp_bounds (q : Dyad) : 0 ≤ alphaUp q ∧ alphaUp q ≤ 22 := by
  unfold alphaUp; split
  · exact ⟨clamp_lower (by norm_num), clamp_upper (by norm_num)⟩
  · norm_num

theorem splitUp_eq (y : Int) : splitUp y = if 8 ≤ y then (7, y - 7) else (y, 0) := rfl

theorem splitUp_sum (y : Int) : (splitUp y).1 + (splitUp y).2 = y := by
  rw [splitUp_eq]; split <;> simp

theorem splitUp_bounds {y : Int} (h₀ : 0 ≤ y) (h : y ≤ 22) :
    0 ≤ (splitUp y).1 ∧ (splitUp y).1 ≤ 7 ∧ 0 ≤ (splitUp y).2 ∧ (splitUp y).2 ≤ 15 := by
  rw [splitUp_eq]; split <;> simp only <;> omega

/-- The fields of alpha with the constants of R6 written out (R66). -/
theorem alphaFields_eq (tie : Tie) (q : Dyad) : alphaFields tie q =
    { a0 := BitVec.ofInt 16
        (clamp (rnd tie (scale q (16 + alphaDown q - (splitUp (alphaUp q)).1 - (splitUp (alphaUp q)).2))) 1 65535)
      a1 := BitVec.ofInt 6 (alphaDown q)
      a2 := BitVec.ofInt 3 (splitUp (alphaUp q)).1
      a3 := BitVec.ofInt 4 (splitUp (alphaUp q)).2 } := rfl

/-- A clamped mantissa is in its range. -/
theorem mantissa_bounds (v : Int) {hi : Int} (h : 1 ≤ hi) : 1 ≤ clamp v 1 hi ∧ clamp v 1 hi ≤ hi :=
  ⟨clamp_lower h, clamp_upper h⟩

/-- The fields of alpha as integers (R66). -/
theorem alphaFields_spec (tie : Tie) (q : Dyad) :
    ((alphaFields tie q).a0.toNat : Int) = clamp (rnd tie (scale q (16 + alphaDown q - alphaUp q))) 1 65535 ∧
    ((alphaFields tie q).a1.toNat : Int) = alphaDown q ∧
    ((alphaFields tie q).a2.toNat : Int) = (splitUp (alphaUp q)).1 ∧
    ((alphaFields tie q).a3.toNat : Int) = (splitUp (alphaUp q)).2 := by
  have hd := alphaDown_bounds q
  have hu := alphaUp_bounds q
  have hs := splitUp_bounds hu.1 hu.2
  have e : 16 + alphaDown q - (splitUp (alphaUp q)).1 - (splitUp (alphaUp q)).2 = 16 + alphaDown q - alphaUp q := by
    have := splitUp_sum (alphaUp q); omega
  have hm := mantissa_bounds (rnd tie (scale q (16 + alphaDown q - alphaUp q))) (hi := 65535) (by norm_num)
  rw [alphaFields_eq, e]
  exact ⟨toNat_ofInt_of_lt (by omega) (by norm_num; omega), toNat_ofInt_of_lt hd.1 (by norm_num; omega),
    toNat_ofInt_of_lt hs.1 (by norm_num; omega), toNat_ofInt_of_lt hs.2.2.1 (by norm_num; omega)⟩

/-- The downward exponent of beta, gamma and delta (R67 to R69). -/
def downExp (q : Dyad) : Int := clamp (nclog2 q) 0 31

theorem downExp_bounds (q : Dyad) : 0 ≤ downExp q ∧ downExp q ≤ 31 :=
  ⟨clamp_lower (by norm_num), clamp_upper (by norm_num)⟩

theorem betaFields_eq (tie : Tie) (q : Dyad) : betaFields tie q =
    { b0 := BitVec.ofInt 17 (clamp (rnd tie (scale q (17 + downExp q))) 1 131071)
      b1 := BitVec.ofInt 5 (downExp q) } := rfl

theorem deltaFields_eq (tie : Tie) (q : Dyad) : deltaFields tie q =
    { d0 := BitVec.ofInt 15 (clamp (rnd tie (scale q (15 + downExp q))) 1 32767)
      d1 := BitVec.ofInt 5 (downExp q) } := rfl

/-- The fields of beta as integers (R67). -/
theorem betaFields_spec (tie : Tie) (q : Dyad) :
    ((betaFields tie q).b0.toNat : Int) = clamp (rnd tie (scale q (17 + downExp q))) 1 131071 ∧
    ((betaFields tie q).b1.toNat : Int) = downExp q := by
  have h := downExp_bounds q
  have hm := mantissa_bounds (rnd tie (scale q (17 + downExp q))) (hi := 131071) (by norm_num)
  rw [betaFields_eq]
  exact ⟨toNat_ofInt_of_lt (by omega) (by norm_num; omega), toNat_ofInt_of_lt h.1 (by norm_num; omega)⟩

/-- Gamma's fields are beta's under their own names (R68). -/
theorem gammaFields_eq (tie : Tie) (q : Dyad) :
    gammaFields tie q = ⟨(betaFields tie q).b0, (betaFields tie q).b1⟩ := rfl

/-- The fields of delta as integers (R69). -/
theorem deltaFields_spec (tie : Tie) (q : Dyad) :
    ((deltaFields tie q).d0.toNat : Int) = clamp (rnd tie (scale q (15 + downExp q))) 1 32767 ∧
    ((deltaFields tie q).d1.toNat : Int) = downExp q := by
  have h := downExp_bounds q
  have hm := mantissa_bounds (rnd tie (scale q (15 + downExp q))) (hi := 32767) (by norm_num)
  rw [deltaFields_eq]
  exact ⟨toNat_ofInt_of_lt (by omega) (by norm_num; omega), toNat_ofInt_of_lt h.1 (by norm_num; omega)⟩

/-- Gamma decodes as beta (R88). -/
theorem decodeGamma_eq (c : GammaCode) : decodeGamma c = decodeBeta ⟨c.g0, c.g1⟩ := rfl

end Sys2Proof.Machine
end

