-- ==== Sys2Proof/Laws/State.lean ====
section
/-! SUPPORT. The fields of State after each named operation, so that no proof unfolds a record update. -/

namespace Sys2Proof.Machine

variable (s : State) (r : Response) (a : Addr) (b : Byte)

@[simp] theorem nextLine_pending : s.nextLine.pending = s.pending.tail := rfl
@[simp] theorem nextLine_outcomes : s.nextLine.outcomes = s.outcomes := rfl
@[simp] theorem nextLine_reads : s.nextLine.reads = s.reads := rfl
@[simp] theorem nextLine_transport : s.nextLine.transport = s.transport := rfl
@[simp] theorem nextLine_freeIndex : s.nextLine.freeIndex = s.freeIndex := rfl

@[simp] theorem deliver_pending : (s.deliver r).pending = s.pending := rfl
@[simp] theorem deliver_outcomes : (s.deliver r).outcomes = s.outcomes ++ [r] := rfl
@[simp] theorem deliver_reads : (s.deliver r).reads = s.reads := rfl
@[simp] theorem deliver_transport : (s.deliver r).transport = s.transport := rfl
@[simp] theorem deliver_freeIndex : (s.deliver r).freeIndex = s.freeIndex := rfl

@[simp] theorem raiseInvalidInput_eq : s.raiseInvalidInput = s.deliver .invalidInput := rfl
@[simp] theorem deliverEncode_ok (c : Code) : s.deliverEncode (.ok c) = s.deliver (.encoded c) := rfl
@[simp] theorem deliverEncode_invalidInput : s.deliverEncode .invalidInput = s.deliver .invalidInput := rfl
@[simp] theorem deliverDecode_eq (y : Real64) : s.deliverDecode y = s.deliver (.decoded y) := rfl

@[simp] theorem writeByte_pending : (s.writeByte a b).pending = s.pending := rfl
@[simp] theorem writeByte_outcomes : (s.writeByte a b).outcomes = s.outcomes := rfl
@[simp] theorem writeByte_reads : (s.writeByte a b).reads = s.reads := rfl
@[simp] theorem writeByte_received :
    (s.writeByte a b).transport.received = s.transport.received.write a.toNat b := rfl
@[simp] theorem writeByte_applied : (s.writeByte a b).transport.applied = s.transport.applied := rfl
@[simp] theorem writeByte_freeIndex : (s.writeByte a b).freeIndex = s.freeIndex := rfl

@[simp] theorem readByte_pending : (s.readByte a).pending = s.pending := rfl
@[simp] theorem readByte_outcomes : (s.readByte a).outcomes = s.outcomes := rfl
@[simp] theorem readByte_reads : (s.readByte a).reads = s.reads ++ [s.readValue a] := rfl
@[simp] theorem readByte_transport : (s.readByte a).transport = s.transport := rfl
@[simp] theorem readByte_freeIndex : (s.readByte a).freeIndex = s.freeIndex + 1 := rfl

@[simp] theorem ioUpdate_pending : s.ioUpdate.pending = s.pending := rfl
@[simp] theorem ioUpdate_outcomes : s.ioUpdate.outcomes = s.outcomes := rfl
@[simp] theorem ioUpdate_reads : s.ioUpdate.reads = s.reads := rfl
@[simp] theorem ioUpdate_received : s.ioUpdate.transport.received = [] := rfl
@[simp] theorem ioUpdate_applied :
    s.ioUpdate.transport.applied = s.transport.applied.overlay s.transport.received := rfl
@[simp] theorem ioUpdate_freeIndex : s.ioUpdate.freeIndex = s.freeIndex := rfl

end Sys2Proof.Machine
end

