-- ==== Sys2Proof/Laws/Memory.lean ====
section
/-! SUPPORT. Transport memory: read after write, everything else left alone, and every operation keeps the canonical form. -/

namespace Sys2Proof.Machine

@[simp] theorem Memory.read_nil (a : Nat) : Memory.read [] a = none := rfl

theorem Memory.read_cons (p : Host.Cell) (m : Memory) (a : Nat) :
    Memory.read (p :: m) a = if p.1 = a then some p.2 else Memory.read m a := rfl

theorem Memory.wf_iff (m : Memory) :
    Memory.wf m = true ↔ m.Pairwise (fun p q => p.1 < q.1) ∧ ∀ p ∈ m, p.1 < 2 ^ 16 := by
  simp [Memory.wf]

theorem Memory.read_none_of_lt {m : Memory} {a : Nat} (h : ∀ p ∈ m, a < p.1) : Memory.read m a = none := by
  induction m with
  | nil => rfl
  | cons p m ih =>
    have hp := h p (by simp)
    rw [Memory.read_cons, if_neg (by omega), ih fun q hq => h q (by simp [hq])]

theorem Memory.read_write (m : Memory) (a : Nat) (b : Byte) (c : Nat) (h : m.Pairwise (fun p q => p.1 < q.1)) :
    Memory.read (Memory.write m a b) c = if c = a then some b else Memory.read m c := by
  induction m with
  | nil => simp [Memory.write, Memory.read_cons, eq_comm]
  | cons p m ih =>
    rw [List.pairwise_cons] at h
    unfold Memory.write
    split
    · simp [Memory.read_cons, eq_comm]
    · split
      · next h₁ h₂ =>
        simp only [Memory.read_cons, h₂, eq_comm (a := c)]
        split <;> rfl
      · next h₁ h₂ =>
        rw [Memory.read_cons, ih h.2, Memory.read_cons]
        by_cases hc : c = a
        · subst hc; rw [if_neg (by omega), if_pos rfl, if_pos rfl]
        · simp [hc]

theorem Memory.mem_write {m : Memory} {a : Nat} {b : Byte} {p : Host.Cell} (h : p ∈ Memory.write m a b) :
    p = (a, b) ∨ p ∈ m := by
  induction m with
  | nil => simpa [Memory.write] using h
  | cons q m ih =>
    unfold Memory.write at h
    split at h
    · simpa using h
    · split at h
      · rcases List.mem_cons.mp h with h | h
        · exact .inl h
        · exact .inr (by simp [h])
      · rcases List.mem_cons.mp h with h | h
        · exact .inr (by simp [h])
        · exact (ih h).imp_right (by simp +contextual)

theorem Memory.pairwise_write {m : Memory} (a : Nat) (b : Byte) (h : m.Pairwise (fun p q => p.1 < q.1)) :
    (Memory.write m a b).Pairwise (fun p q => p.1 < q.1) := by
  induction m with
  | nil => simp [Memory.write]
  | cons p m ih =>
    rw [List.pairwise_cons] at h
    unfold Memory.write
    split
    · next h₁ =>
      refine List.pairwise_cons.mpr ⟨fun q hq => ?_, List.pairwise_cons.mpr h⟩
      rcases List.mem_cons.mp hq with rfl | hq
      · exact h₁
      · exact h₁.trans (h.1 q hq)
    · split
      · next h₁ h₂ => exact List.pairwise_cons.mpr ⟨fun q hq => by simpa [h₂] using h.1 q hq, h.2⟩
      · next h₁ h₂ =>
        refine List.pairwise_cons.mpr ⟨fun q hq => ?_, ih h.2⟩
        rcases Memory.mem_write hq with rfl | hq
        · simp only; omega
        · exact h.1 q hq

theorem Memory.wf_write {m : Memory} {a : Nat} (b : Byte) (h : Memory.wf m = true) (ha : a < 2 ^ 16) :
    Memory.wf (Memory.write m a b) = true := by
  rw [Memory.wf_iff] at h ⊢
  refine ⟨Memory.pairwise_write a b h.1, fun p hp => ?_⟩
  rcases Memory.mem_write hp with rfl | hp
  · exact ha
  · exact h.2 p hp

theorem Memory.wf_overlay {base m : Memory} (hb : Memory.wf base = true) (hm : ∀ p ∈ m, p.1 < 2 ^ 16) :
    Memory.wf (Memory.overlay base m) = true := by
  induction m generalizing base with
  | nil => exact hb
  | cons p m ih =>
    exact ih (Memory.wf_write p.2 hb (hm p (by simp))) fun q hq => hm q (by simp [hq])

/-- Reading a memory with another laid over it: the other's byte where it has one. -/
theorem Memory.read_overlay {base m : Memory} (a : Nat) (hb : base.Pairwise (fun p q => p.1 < q.1))
    (hm : m.Pairwise (fun p q => p.1 < q.1)) :
    Memory.read (Memory.overlay base m) a = (Memory.read m a).or (Memory.read base a) := by
  induction m generalizing base with
  | nil => rfl
  | cons p m ih =>
    rw [List.pairwise_cons] at hm
    show Memory.read (Memory.overlay (Memory.write base p.1 p.2) m) a = _
    rw [ih (Memory.pairwise_write p.1 p.2 hb) hm.2, Memory.read_write _ _ _ _ hb, Memory.read_cons]
    by_cases h : p.1 = a
    · subst h; rw [Memory.read_none_of_lt hm.1]; simp
    · rw [if_neg h, if_neg (Ne.symm h)]

theorem wf_reset : Memory.wf State.reset.transport.received = true ∧ Memory.wf State.reset.transport.applied = true :=
  ⟨rfl, rfl⟩

theorem wf_writeByte {s : State} (a : Addr) (b : Byte) (h : Memory.wf s.transport.received = true) :
    Memory.wf (s.writeByte a b).transport.received = true :=
  Memory.wf_write b h a.isLt

theorem wf_ioUpdate {s : State} (hr : Memory.wf s.transport.received = true)
    (ha : Memory.wf s.transport.applied = true) : Memory.wf s.ioUpdate.transport.applied = true :=
  Memory.wf_overlay ha ((Memory.wf_iff _).mp hr).2

end Sys2Proof.Machine
end

