-- ==== Sys2Proof/Laws/Words.lean ====
section
/-! SUPPORT. The bits of request words and code words (spec/30_encoding.md R47, R50 to R53). -/

namespace Sys2Proof

theorem kind_cases (b : BitVec 2) :
    b = 0#2 ∧ CoefKind.ofBits b = .alpha ∨ b = 1#2 ∧ CoefKind.ofBits b = .beta ∨
    b = 2#2 ∧ CoefKind.ofBits b = .gamma ∨ b = 3#2 ∧ CoefKind.ofBits b = .delta := by
  revert b; decide

/-! Requests `{op, opnd}` (R47). -/

theorem request_bit (op : BitVec 3) (o : BitVec 64) (i : Nat) :
    BitVec.getLsbD (w := 67) (op ++ o) i = if i < 64 then o.getLsbD i else op.getLsbD (i - 64) := by
  show BitVec.getLsbD (w := 3 + 64) (op ++ o) i = _
  rw [BitVec.getLsbD_append]

theorem request_unit (op : BitVec 3) (o : BitVec 64) : BitVec.getLsbD (w := 67) (op ++ o) 66 = op.getLsbD 2 := by
  rw [request_bit]; rfl

theorem request_op (op : BitVec 3) (o : BitVec 64) : BitVec.extractLsb' (n := 67) 64 3 (op ++ o) = op := by
  ext i hi
  rw [BitVec.getElem_extractLsb', request_bit, if_neg (by omega), Nat.add_sub_cancel_left, BitVec.getLsbD_eq_getElem hi]

theorem request_kind (op : BitVec 3) (o : BitVec 64) :
    BitVec.extractLsb' (n := 67) 64 2 (op ++ o) = op.extractLsb' 0 2 := by
  ext i hi
  rw [BitVec.getElem_extractLsb', request_bit, BitVec.getElem_extractLsb', if_neg (by omega), Nat.add_sub_cancel_left,
    Nat.zero_add]

theorem request_opnd (op : BitVec 3) (o : BitVec 64) : BitVec.extractLsb' (n := 67) 0 64 (op ++ o) = o := by
  ext i hi
  rw [BitVec.getElem_extractLsb', request_bit, if_pos (by omega), Nat.zero_add, BitVec.getLsbD_eq_getElem hi]

theorem request_code (op : BitVec 3) (o : BitVec 64) :
    BitVec.extractLsb' (n := 67) 0 29 (op ++ o) = o.extractLsb' 0 29 := by
  ext i hi
  rw [BitVec.getElem_extractLsb', request_bit, BitVec.getElem_extractLsb', if_pos (by omega)]

/-- A request word is its `op` and its `opnd`. -/
theorem request_eta (r : Request) : r = r.extractLsb' 64 3 ++ r.extractLsb' 0 64 := by
  apply BitVec.eq_of_getLsbD_eq
  intro i hi
  rw [request_bit, BitVec.getLsbD_extractLsb', BitVec.getLsbD_extractLsb']
  split
  · next h => simp [h]
  · next h =>
    simp only [show i - 64 < 3 by omega, decide_true, Bool.true_and]
    rw [show 64 + (i - 64) = i by omega]

/-! Code words (R50 to R52). -/

theorem zext_code (c : CodeWord) : (c.setWidth 64).extractLsb' 0 29 = c := by
  ext i hi
  simp only [BitVec.getElem_extractLsb', BitVec.getLsbD_setWidth, Nat.zero_add, show i < 64 by omega, decide_true,
    Bool.true_and, BitVec.getLsbD_eq_getElem hi]

theorem AlphaCode.pack_bit (c : AlphaCode) (i : Nat) :
    c.pack.getLsbD i = if i < 16 then c.a0.getLsbD i else if i - 16 < 6 then c.a1.getLsbD (i - 16)
      else if i - 16 - 6 < 3 then c.a2.getLsbD (i - 16 - 6) else c.a3.getLsbD (i - 16 - 6 - 3) := by
  show BitVec.getLsbD (w := 4 + 3 + 6 + 16) (c.a3 ++ c.a2 ++ c.a1 ++ c.a0) i = _
  rw [BitVec.getLsbD_append, BitVec.getLsbD_append, BitVec.getLsbD_append]

theorem BetaCode.pack_bit (c : BetaCode) (i : Nat) :
    c.pack.getLsbD i = if i < 17 then c.b0.getLsbD i else if i - 17 < 5 then c.b1.getLsbD (i - 17) else false := by
  show BitVec.getLsbD (w := 7 + 5 + 17) (0#7 ++ c.b1 ++ c.b0) i = _
  rw [BitVec.getLsbD_append, BitVec.getLsbD_append, BitVec.getLsbD_zero]

theorem DeltaCode.pack_bit (c : DeltaCode) (i : Nat) :
    c.pack.getLsbD i = if i < 15 then c.d0.getLsbD i else if i - 15 < 5 then c.d1.getLsbD (i - 15) else false := by
  show BitVec.getLsbD (w := 9 + 5 + 15) (0#9 ++ c.d1 ++ c.d0) i = _
  rw [BitVec.getLsbD_append, BitVec.getLsbD_append, BitVec.getLsbD_zero]

theorem GammaCode.pack_eq (c : GammaCode) : c.pack = BetaCode.pack ⟨c.g0, c.g1⟩ := rfl

theorem AlphaCode.unpack_pack (c : AlphaCode) : AlphaCode.unpack c.pack = c := by
  obtain ⟨a, b, d, e⟩ := c
  simp only [AlphaCode.unpack, AlphaCode.mk.injEq]
  refine ⟨?_, ?_, ?_, ?_⟩ <;> ext i hi <;> rw [BitVec.getElem_extractLsb', AlphaCode.pack_bit]
  · rw [if_pos (by omega), Nat.zero_add, BitVec.getLsbD_eq_getElem hi]
  · rw [if_neg (by omega), if_pos (by omega), show 16 + i - 16 = i by omega, BitVec.getLsbD_eq_getElem hi]
  · rw [if_neg (by omega), if_neg (by omega), if_pos (by omega), show 22 + i - 16 - 6 = i by omega,
      BitVec.getLsbD_eq_getElem hi]
  · rw [if_neg (by omega), if_neg (by omega), if_neg (by omega), show 25 + i - 16 - 6 - 3 = i by omega,
      BitVec.getLsbD_eq_getElem hi]

theorem BetaCode.unpack_pack (c : BetaCode) : BetaCode.unpack c.pack = c := by
  obtain ⟨a, b⟩ := c
  simp only [BetaCode.unpack, BetaCode.mk.injEq]
  refine ⟨?_, ?_⟩ <;> ext i hi <;> rw [BitVec.getElem_extractLsb', BetaCode.pack_bit]
  · rw [if_pos (by omega), Nat.zero_add, BitVec.getLsbD_eq_getElem hi]
  · rw [if_neg (by omega), if_pos (by omega), show 17 + i - 17 = i by omega, BitVec.getLsbD_eq_getElem hi]

theorem GammaCode.unpack_pack (c : GammaCode) : GammaCode.unpack c.pack = c := by
  have h := BetaCode.unpack_pack ⟨c.g0, c.g1⟩
  simp only [BetaCode.unpack, BetaCode.mk.injEq] at h
  simp only [GammaCode.unpack, GammaCode.pack_eq, h.1, h.2]

theorem DeltaCode.unpack_pack (c : DeltaCode) : DeltaCode.unpack c.pack = c := by
  obtain ⟨a, b⟩ := c
  simp only [DeltaCode.unpack, DeltaCode.mk.injEq]
  refine ⟨?_, ?_⟩ <;> ext i hi <;> rw [BitVec.getElem_extractLsb', DeltaCode.pack_bit]
  · rw [if_pos (by omega), Nat.zero_add, BitVec.getLsbD_eq_getElem hi]
  · rw [if_neg (by omega), if_pos (by omega), show 15 + i - 15 = i by omega, BitVec.getLsbD_eq_getElem hi]

/-- An encoded form is what its code word unpacks to under its kind. -/
theorem Code.unpack_pack (c : Code) : Code.unpack c.pack c.kind = c := by
  cases c
  · exact congrArg Code.alpha (AlphaCode.unpack_pack _)
  · exact congrArg Code.beta (BetaCode.unpack_pack _)
  · exact congrArg Code.gamma (GammaCode.unpack_pack _)
  · exact congrArg Code.delta (DeltaCode.unpack_pack _)

end Sys2Proof
end

