-- ==== Sys2Proof/Laws/PerInstr.lean ====
section
/-! SUPPORT. Per instruction: the encoded word of every operation lies in its row of spec/opcode_table.json, whose mask is
`0x70000000000000000` (spec/30_encoding.md R48). -/

namespace Sys2Proof.Laws.TableRow

/-- The `match` value of the operation's row of spec/opcode_table.json. -/
def rowMatch : Instr → Request
  | .encAlpha _ => 0x00000000000000000#67
  | .encBeta _ => 0x10000000000000000#67
  | .encGamma _ => 0x20000000000000000#67
  | .encDelta _ => 0x30000000000000000#67
  | .decAlpha _ => 0x40000000000000000#67
  | .decBeta _ => 0x50000000000000000#67
  | .decGamma _ => 0x60000000000000000#67
  | .decDelta _ => 0x70000000000000000#67

/-- The encoded word meets the mask and match of the operation's row. -/
def Statement (i : Instr) : Prop := encode i &&& 0x70000000000000000#67 = rowMatch i

/-- The row mask keeps the `op` field alone. -/
theorem masked (op : BitVec 3) (o : BitVec 64) :
    ((op ++ o : Request) &&& 0x70000000000000000#67) = (op ++ 0#64 : Request) := by
  have h : (0x70000000000000000#67 : Request) = (0b111#3 ++ 0#64 : Request) := by decide
  apply BitVec.eq_of_getLsbD_eq
  intro i hi
  rw [h, BitVec.getLsbD_and, request_bit, request_bit, request_bit]
  split
  · simp
  · have : i = 64 ∨ i = 65 ∨ i = 66 := by omega
    rcases this with rfl | rfl | rfl <;> simp

theorem encAlpha (x : Real64) : Statement (.encAlpha x) :=
  (masked 0#3 _).trans (by simp only [rowMatch]; decide)
theorem encBeta (x : Real64) : Statement (.encBeta x) :=
  (masked 1#3 _).trans (by simp only [rowMatch]; decide)
theorem encGamma (x : Real64) : Statement (.encGamma x) :=
  (masked 2#3 _).trans (by simp only [rowMatch]; decide)
theorem encDelta (x : Real64) : Statement (.encDelta x) :=
  (masked 3#3 _).trans (by simp only [rowMatch]; decide)
theorem decAlpha (c : AlphaCode) : Statement (.decAlpha c) :=
  (masked 4#3 _).trans (by simp only [rowMatch]; decide)
theorem decBeta (c : BetaCode) : Statement (.decBeta c) :=
  (masked 5#3 _).trans (by simp only [rowMatch]; decide)
theorem decGamma (c : GammaCode) : Statement (.decGamma c) :=
  (masked 6#3 _).trans (by simp only [rowMatch]; decide)
theorem decDelta (c : DeltaCode) : Statement (.decDelta c) :=
  (masked 7#3 _).trans (by simp only [rowMatch]; decide)

end Sys2Proof.Laws.TableRow
end

