-- ==== Sys2Proof/Laws/Step.lean ====
section
/-! SUPPORT. What one operation, one step and a run can do, said once (spec/10_state.md R20, spec/20_memory.md R41). -/

namespace Sys2Proof.Machine

/-- The response an outcome of an encode operation is delivered as (R54). -/
def Response.ofEncode : OpOutcome Code → Response
  | .ok c => .encoded c
  | .invalidInput => .invalidInput

theorem deliverEncode_eq (s : State) (o : OpOutcome Code) : s.deliverEncode o = s.deliver (.ofEncode o) := by
  cases o <;> rfl

/-- The response of each operation. -/
def response : Instr → Response
  | .encAlpha x => .ofEncode ((encodeAlpha params.tie x).map .alpha)
  | .encBeta x => .ofEncode ((encodeBeta params.tie x).map .beta)
  | .encGamma x => .ofEncode ((encodeGamma params.tie x).map .gamma)
  | .encDelta x => .ofEncode ((encodeDelta params.tie x).map .delta)
  | .decAlpha c => .decoded (decodeAlpha c)
  | .decBeta c => .decoded (decodeBeta c)
  | .decGamma c => .decoded (decodeGamma c)
  | .decDelta c => .decoded (decodeDelta c)

/-- All that an operation does: it delivers its response. -/
theorem exec_eq (i : Instr) (s : State) : exec i s = .next (s.deliver (response i)) := by
  cases i with
  | encAlpha x => exact congrArg _ (deliverEncode_eq s _)
  | encBeta x => exact congrArg _ (deliverEncode_eq s _)
  | encGamma x => exact congrArg _ (deliverEncode_eq s _)
  | encDelta x => exact congrArg _ (deliverEncode_eq s _)
  | decAlpha c => rfl
  | decBeta c => rfl
  | decGamma c => rfl
  | decDelta c => rfl

/-- All that a step that answers a next state can have done. -/
theorem step_next {s t : State} (h : step s = .next t) :
    (s.pending = [] ∧ t = s) ∨
    (∃ i a rest, s.pending = a :: rest ∧ (a.result).isSome = true ∧ t = s.nextLine.deliver (response i)) ∨
    (∃ a b rest, s.pending = .writeByte a b :: rest ∧ t = s.nextLine.writeByte a b) ∨
    (∃ a rest, s.pending = .readByte a :: rest ∧ t = s.nextLine.readByte a) ∨
    (∃ rest, s.pending = .ioUpdate :: rest ∧ t = s.nextLine.ioUpdate) := by
  unfold step at h
  split at h
  · next hp => cases h; exact .inl ⟨hp, rfl⟩
  · next hp => rw [exec_eq] at h; cases h; exact .inr (.inl ⟨_, _, _, hp, rfl, rfl⟩)
  · next hp =>
    split at h
    · rw [exec_eq] at h; cases h; exact .inr (.inl ⟨_, _, _, hp, rfl, rfl⟩)
    · cases h
  · next hp =>
    split at h
    · rw [exec_eq] at h; cases h; exact .inr (.inl ⟨_, _, _, hp, rfl, rfl⟩)
    · cases h
  · next hp => cases h; exact .inr (.inr (.inl ⟨_, _, _, hp, rfl⟩))
  · next hp => cases h; exact .inr (.inr (.inr (.inl ⟨_, _, hp, rfl⟩)))
  · next hp => cases h; exact .inr (.inr (.inr (.inr ⟨_, hp, rfl⟩)))

theorem step_request {s : State} {req : Request} {rest : List HostAction} (h : s.pending = .request req :: rest) :
    step s = .next (s.nextLine.deliver (response (decode req))) := by
  unfold step; rw [h]; exact exec_eq _ _

theorem step_writeByte {s : State} {a : Addr} {b : Byte} {rest : List HostAction}
    (h : s.pending = .writeByte a b :: rest) : step s = .next (s.nextLine.writeByte a b) := by
  unfold step; rw [h]

theorem step_readByte {s : State} {a : Addr} {rest : List HostAction} (h : s.pending = .readByte a :: rest) :
    step s = .next (s.nextLine.readByte a) := by
  unfold step; rw [h]

theorem step_ioUpdate {s : State} {rest : List HostAction} (h : s.pending = .ioUpdate :: rest) :
    step s = .next s.nextLine.ioUpdate := by
  unfold step; rw [h]

/-! Runs. -/

theorem run_zero (s : State) : core.run 0 s = .next s := rfl

/-- Of any machine: a run that starts with a next step goes on from there. -/
theorem run_succ_of_next {M : Host.Core} (k : Nat) {s t : M.State} (h : M.step s = .next t) :
    M.run (k + 1) s = M.run k t := by
  rw [Host.Core.run, h]

/-- Of any machine: a run that ends in a next state took a next step first. -/
theorem next_of_run_succ {M : Host.Core} {k : Nat} {s t : M.State} (h : M.run (k + 1) s = .next t) :
    ∃ u, M.step s = .next u ∧ M.run k u = .next t := by
  rw [Host.Core.run] at h
  cases hs : M.step s with
  | next u => rw [hs] at h; exact ⟨u, rfl, h⟩
  | fault r => rw [hs] at h; cases h
  | refused r => rw [hs] at h; cases h

theorem run_succ_next {s t : State} (k : Nat) (h : step s = .next t) : core.run (k + 1) s = core.run k t :=
  run_succ_of_next (M := core) k h

theorem run_succ_inv {s t : State} {k : Nat} (h : core.run (k + 1) s = .next t) :
    ∃ u : State, step s = .next u ∧ core.run k u = .next t :=
  next_of_run_succ (M := core) h

/-- What every step keeps, a run keeps. -/
theorem run_keeps {P : State → Prop} (hstep : ∀ s t, P s → step s = .next t → P t) {k : Nat} {s t : State}
    (hs : P s) (h : core.run k s = .next t) : P t := by
  induction k generalizing s with
  | zero => cases h; exact hs
  | succ k ih =>
    obtain ⟨u, hu, hk⟩ := run_succ_inv h
    exact ih (hstep s u hs hu) hk

end Sys2Proof.Machine
end

