-- ==== Sys2Proof/Tests/Slice0.lean ====
section
/-! SUPPORT. Tests. Expected results are taken from spec/95_test_vectors.md and spec/30_encoding.md, not from the model; the witness
theorems show that the hypotheses of each obligation can be met, at the edges of their ranges. -/

namespace Sys2Proof.Tests

open Sys2Proof Sys2Proof.Machine

/-! WellFormed: what the checks refuse. -/

/-- Every operation is well-formed (R55), with any operand. -/
theorem test_wf_every_operation :
    (Instr.encAlpha 0x7FF8000000000000#64).wf = true ∧ (Instr.encBeta 0#64).wf = true ∧
    (Instr.encGamma 0xFFFFFFFFFFFFFFFF#64).wf = true ∧ (Instr.encDelta 0x8000000000000000#64).wf = true ∧
    (Instr.decAlpha ⟨0, 63, 7, 15⟩).wf = true ∧ (Instr.decBeta ⟨0, 31⟩).wf = true ∧
    (Instr.decGamma ⟨1, 0⟩).wf = true ∧ (Instr.decDelta ⟨16384, 0⟩).wf = true := by decide

/-- Part 4.1: the alpha operands "no encoder produces". -/
theorem test_canonical_refuses_alpha :
    AlphaCode.canonical ⟨0, 0, 0, 0⟩ = false ∧ AlphaCode.canonical ⟨0, 63, 7, 15⟩ = false ∧
    AlphaCode.canonical ⟨1, 0, 0, 0⟩ = false ∧ AlphaCode.canonical ⟨1, 0, 1, 0⟩ = false ∧
    AlphaCode.canonical ⟨32768, 1, 1, 0⟩ = false ∧ AlphaCode.canonical ⟨40000, 5, 3, 2⟩ = false ∧
    AlphaCode.canonical ⟨65535, 63, 7, 15⟩ = false ∧ AlphaCode.canonical ⟨65535, 0, 6, 1⟩ = false ∧
    AlphaCode.canonical ⟨65535, 0, 0, 7⟩ = false ∧ AlphaCode.canonical ⟨65535, 0, 7, 0⟩ = true := by decide

/-- Parts 4.2 and 4.3: the operands marked non-canonical. -/
theorem test_canonical_refuses_beta_gamma_delta :
    BetaCode.canonical ⟨0, 0⟩ = false ∧ BetaCode.canonical ⟨0, 31⟩ = false ∧ BetaCode.canonical ⟨65536, 0⟩ = false ∧
    GammaCode.canonical ⟨0, 31⟩ = false ∧ GammaCode.canonical ⟨1, 0⟩ = false ∧ GammaCode.canonical ⟨1, 31⟩ = true ∧
    DeltaCode.canonical ⟨0, 0⟩ = false ∧ DeltaCode.canonical ⟨1, 0⟩ = false ∧ DeltaCode.canonical ⟨16384, 0⟩ = false := by
  decide

/-- R57: a line naming a result that is not there, is later, or has another type makes a program ill-formed; P1 written with names is
well-formed. -/
theorem test_programWf :
    programWf [] [.decodeResult .alpha 0] = false ∧
    programWf [] [.request (encode (.encAlpha 0x3FE0000000000000#64)), .decodeResult .beta 0] = false ∧
    programWf [] [.request (encode (.encBeta 0x3FE0000000000000#64)), .encodeResult .beta 0] = false ∧
    programWf [] [.request (encode (.encGamma 0x3FE0000000000000#64)), .decodeResult .gamma 1] = false ∧
    programWf [] [.request (encode (.decDelta ⟨32767, 4⟩)), .decodeResult .delta 0] = false ∧
    programWf [] [.request (encode (.encAlpha 0x3FE0000000000000#64)), .decodeResult .alpha 0, .encodeResult .alpha 1] = true := by
  decide

/-! Decoding of words written out from R47, R48 and R50 to R52: `op` in three bits, then `opnd`. -/

/-- 0.5 to `ENC.ALPHA` (S3). -/
theorem test_decode_encAlpha : decode (0b000#3 ++ 0x3FE0000000000000#64) = .encAlpha 0x3FE0000000000000#64 := by
  decide +kernel

/-- -0.75 to `ENC.BETA` (P3). -/
theorem test_decode_encBeta : decode (0b001#3 ++ 0xBFE8000000000000#64) = .encBeta 0xBFE8000000000000#64 := by
  decide +kernel

/-- 2^-32 to `ENC.GAMMA` (P3). -/
theorem test_decode_encGamma : decode (0b010#3 ++ 0x3DF0000000000000#64) = .encGamma 0x3DF0000000000000#64 := by
  decide +kernel

/-- 0.1 to `ENC.DELTA` (P4). -/
theorem test_decode_encDelta : decode (0b011#3 ++ 0x3FB999999999999A#64) = .encDelta 0x3FB999999999999A#64 := by
  decide +kernel

/-- `a3 = 2`, `a2 = 3`, `a1 = 5`, `a0 = 40000`; and with the 35 bits above all ones (R53). -/
theorem test_decode_decAlpha :
    decode (0b100#3 ++ 0#35 ++ 0b0010#4 ++ 0b011#3 ++ 0b000101#6 ++ 0b1001110001000000#16) = .decAlpha ⟨40000, 5, 3, 2⟩ ∧
    decode 0x4FFFFFFFFE001FFFF#67 = .decAlpha ⟨65535, 1, 0, 0⟩ := by decide +kernel

/-- `b1 = 1`, `b0 = 131071`; and with the 42 bits above all ones (R53). -/
theorem test_decode_decBeta :
    decode (0b101#3 ++ 0#35 ++ 0#7 ++ 0b00001#5 ++ 0b11111111111111111#17) = .decBeta ⟨131071, 1⟩ ∧
    decode 0x5FFFFFFFFFFC3FFFF#67 = .decBeta ⟨131071, 1⟩ := by decide +kernel

/-- `g1 = 31`, `g0 = 65536`. -/
theorem test_decode_decGamma :
    decode (0b110#3 ++ 0#35 ++ 0#7 ++ 0b11111#5 ++ 0b10000000000000000#17) = .decGamma ⟨65536, 31⟩ := by decide +kernel

/-- `d1 = 4`, `d0 = 32767`; and with the 44 bits above all ones (R53). -/
theorem test_decode_decDelta :
    decode (0b111#3 ++ 0#35 ++ 0#9 ++ 0b00100#5 ++ 0b111111111111111#15) = .decDelta ⟨32767, 4⟩ ∧
    decode 0x7FFFFFFFFFFF27FFF#67 = .decDelta ⟨32767, 4⟩ := by decide +kernel

/-- R56: a number wider than a request is refused by name; the widest request is not. -/
theorem test_decodeNumber :
    decodeNumber (2 ^ 67) = .error .widerThanRequest ∧
    decodeNumber (2 ^ 67 - 1) = .ok (.decDelta ⟨32767, 31⟩) ∧
    decodeTableWord 67 (2 ^ 67) = none ∧ decodeTableWord 67 (2 ^ 66) = some (.decAlpha ⟨0, 0, 0, 0⟩) := by
  exact ⟨rfl, congrArg Except.ok (by decide +kernel), by decide +kernel, by decide +kernel⟩

/-! One step on a small state. -/

/-- The state after reset with a host program to run. -/
def ready (program : List HostAction) : State := { State.reset with pending := program }

/-- The responses the host holds after one step. -/
def answers (s : State) : List Response :=
  match step s with
  | .next t => t.outcomes
  | .fault _ => []
  | .refused _ => []

/-- What the host holds after one request, issued after reset. -/
def answer (i : Instr) : List Response := answers (ready [.request (encode i)])

/-- 300.0 (P2); and 1 + 2^-16, an exact half (2.1, row T). -/
theorem test_encAlpha_up : answer (.encAlpha 0x4072C00000000000#64) = [.encoded (.alpha ⟨38400, 0, 7, 2⟩)] ∧
    answer (.encAlpha 0x3FF0001000000000#64) = [.encoded (.alpha ⟨32768, 0, 1, 0⟩)] := by decide +kernel

/-- 0.3, and -0.5, which alpha rejects (2.1, Part 3). -/
theorem test_encAlpha_down : answer (.encAlpha 0x3FD3333333333333#64) = [.encoded (.alpha ⟨65535, 2, 0, 0⟩)] ∧
    answer (.encAlpha 0xBFE0000000000000#64) = [.invalidInput] := by decide +kernel

/-- 10^-6, and -0.75, whose sign is lost (2.2). -/
theorem test_encBeta : answer (.encBeta 0x3EB0C6F7A0B5ED8D#64) = [.encoded (.beta ⟨131071, 20⟩)] ∧
    answer (.encBeta 0xBFE8000000000000#64) = [.encoded (.beta ⟨131071, 1⟩)] := by decide +kernel

/-- Zero, a quiet NaN, and 131070.5 * 2^-48, an exact half (Part 3, 2.2 row T). -/
theorem test_encBeta_edges : answer (.encBeta 0#64) = [.invalidInput] ∧ answer (.encBeta 0x7FF8000000000000#64) = [.invalidInput] ∧
    answer (.encBeta 0x3DFFFFE800000000#64) = [.encoded (.beta ⟨131070, 31⟩)] := by decide +kernel

/-- 2^-32 and the smallest negative subnormal (2.2). -/
theorem test_encGamma : answer (.encGamma 0x3DF0000000000000#64) = [.encoded (.gamma ⟨65536, 31⟩)] ∧
    answer (.encGamma 0x8000000000000001#64) = [.encoded (.gamma ⟨1, 31⟩)] := by decide +kernel

/-- The most negative finite pattern, and minus infinity (Part 3). -/
theorem test_encGamma_edges : answer (.encGamma 0xFFEFFFFFFFFFFFFF#64) = [.encoded (.gamma ⟨131071, 0⟩)] ∧
    answer (.encGamma 0xFFF0000000000000#64) = [.invalidInput] := by decide +kernel

/-- 0.1, and 2.5 * 2^-46, an exact half (2.3). -/
theorem test_encDelta : answer (.encDelta 0x3FB999999999999A#64) = [.encoded (.delta ⟨32767, 4⟩)] ∧
    answer (.encDelta 0x3D24000000000000#64) = [.encoded (.delta ⟨2, 31⟩)] := by decide +kernel

/-- -0.0, -1.0, and the smallest subnormal (Part 3). -/
theorem test_encDelta_edges : answer (.encDelta 0x8000000000000000#64) = [.invalidInput] ∧
    answer (.encDelta 0xBFF0000000000000#64) = [.invalidInput] ∧
    answer (.encDelta 0x0000000000000001#64) = [.encoded (.delta ⟨1, 31⟩)] := by decide +kernel

/-- 4.1: the largest and the smallest value. -/
theorem test_decAlpha : answer (.decAlpha ⟨65535, 0, 7, 15⟩) = [.decoded 0x414FFFE000000000#64] ∧
    answer (.decAlpha ⟨1, 63, 0, 0⟩) = [.decoded 0x3B00000000000000#64] := by decide +kernel

/-- 4.1: forms no encoder produces. -/
theorem test_decAlpha_noncanonical : answer (.decAlpha ⟨40000, 5, 3, 2⟩) = [.decoded 0x3FE3880000000000#64] ∧
    answer (.decAlpha ⟨0, 63, 7, 15⟩) = [.decoded 0#64] := by decide +kernel

/-- 4.2. -/
theorem test_decBeta : answer (.decBeta ⟨131070, 31⟩) = [.decoded 0x3DFFFFE000000000#64] ∧
    answer (.decBeta ⟨1, 0⟩) = [.decoded 0x3EE0000000000000#64] := by decide +kernel

/-- 4.2. -/
theorem test_decGamma : answer (.decGamma ⟨98304, 31⟩) = [.decoded 0x3DF8000000000000#64] ∧
    answer (.decGamma ⟨131071, 0⟩) = [.decoded 0x3FEFFFF000000000#64] := by decide +kernel

/-- 4.3. -/
theorem test_decDelta : answer (.decDelta ⟨32767, 4⟩) = [.decoded 0x3FAFFFC000000000#64] ∧
    answer (.decDelta ⟨1, 31⟩) = [.decoded 0x3D10000000000000#64] := by decide +kernel

/-- P2 and S7 on the wires. -/
theorem test_responseWord : responseWord 0x04072C00000000000#67 = 0x00000000005C09600#65 ∧
    responseWord 0x40000000005C09600#67 = 0x04072C00000000000#65 ∧
    responseWord 0x10000000000000000#67 = 0x10000000000000000#65 := by decide +kernel

/-- Under `TIE = away`: 1 + 2^-16 and 2.5 * 2^-48 (notes of 2.1 and 2.2). -/
theorem test_tie_away : encodeAlpha .away 0x3FF0001000000000#64 = .ok ⟨32769, 0, 1, 0⟩ ∧
    encodeBeta .away 0x3D04000000000000#64 = .ok ⟨3, 31⟩ := by decide +kernel

/-- A request placed as the host places it is the one that runs. -/
theorem test_withFetchWord :
    answers (State.reset.withFetchWord 67 0x700000000000FFFFF) = [.decoded 0x3DFFFFC000000000#64] := by decide +kernel

/-- R57: P4's ill-formed line `DEC.DELTA y1, r1` after `r1 = InvalidInput` stops by name. -/
theorem test_nothing_to_pass :
    step { ready [.decodeResult .delta 0] with outcomes := [.invalidInput] } = .fault .nothingToPass := rfl

/-- R32: a byte is received before the commit and applied after it. -/
theorem test_transport :
    (((ready []).writeByte 0x0318#16 0x2A#8).transport.received, ((ready []).writeByte 0x0318#16 0x2A#8).transport.applied) =
      ([(0x318, 0x2A#8)], []) ∧
    ((ready []).writeByte 0x0318#16 0x2A#8).ioUpdate.transport = ⟨[], [(0x318, 0x2A#8)]⟩ := by decide

/-- A write keeps the canonical form: rising addresses, one entry each. -/
theorem test_memory_write :
    Memory.write (Memory.write (Memory.write [] 5 1#8) 3 2#8) 5 4#8 = [(3, 2#8), (5, 4#8)] ∧
    Memory.wf [(5, 4#8), (3, 2#8)] = false ∧ Memory.wf [(65536, 4#8)] = false := by decide

/-! Values of a few patterns, for the witnesses. -/

theorem val64_positive_normal {x : Real64} (e f : Nat) (hc : class64 x = .normal) (hs : sign64 x = false)
    (he : exp64 x = e) (hf : frac64 x = f) : val64 x = some ((2 ^ 52 + f) * (2 : ℚ) ^ ((e : Int) - 1075)) := by
  simp only [val64, hc, hs, he, hf]; norm_num

/-- 1. -/
theorem val64_one : val64 0x3FF0000000000000#64 = some 1 := by
  rw [val64_positive_normal 1023 0] <;> first | decide | norm_num

/-- 0.5. -/
theorem val64_half : val64 0x3FE0000000000000#64 = some (1 / 2) := by
  rw [val64_positive_normal 1022 0] <;> first | decide | norm_num

/-- 0.75. -/
theorem val64_three_quarters : val64 0x3FE8000000000000#64 = some (3 / 4) := by
  rw [val64_positive_normal 1022 (2 ^ 51)] <;> first | decide | norm_num

/-- 1.5. -/
theorem val64_three_halves : val64 0x3FF8000000000000#64 = some (3 / 2) := by
  rw [val64_positive_normal 1023 (2 ^ 51)] <;> first | decide | norm_num

/-- 2. -/
theorem val64_two : val64 0x4000000000000000#64 = some 2 := by
  rw [val64_positive_normal 1024 0] <;> first | decide | norm_num

/-- 2^7, the largest `y` below the split. -/
theorem val64_128 : val64 0x4060000000000000#64 = some 128 := by
  rw [val64_positive_normal 1030 0] <;> first | decide | norm_num

/-- 2^22. -/
theorem val64_top : val64 0x4150000000000000#64 = some (2 ^ 22) := by
  rw [val64_positive_normal 1045 0] <;> first | decide | norm_num

/-- The pattern after 2^22. -/
theorem val64_past_top : val64 0x4150000000000001#64 = some (2 ^ 22 + 2 ^ (-30 : Int)) := by
  rw [val64_positive_normal 1045 1] <;> first | decide | norm_num

/-- The pattern after 1. -/
theorem val64_past_one : val64 0x3FF0000000000001#64 = some (1 + 2 ^ (-52 : Int)) := by
  rw [val64_positive_normal 1023 1] <;> first | decide | norm_num

/-- The pattern before 1. -/
theorem val64_before_one : val64 0x3FEFFFFFFFFFFFFF#64 = some (1 - 2 ^ (-53 : Int)) := by
  rw [val64_positive_normal 1022 (2 ^ 52 - 1)] <;> first | decide | norm_num

/-- 2^-63. -/
theorem val64_low : val64 0x3C00000000000000#64 = some (2 ^ (-63 : Int)) := by
  rw [val64_positive_normal 960 0] <;> first | decide | norm_num

/-- 2^-64, in the range below 2^-63. -/
theorem val64_below_low : val64 0x3BF0000000000000#64 = some (2 ^ (-64 : Int)) := by
  rw [val64_positive_normal 959 0] <;> first | decide | norm_num

/-- 2^-31. -/
theorem val64_low31 : val64 0x3E00000000000000#64 = some (2 ^ (-31 : Int)) := by
  rw [val64_positive_normal 992 0] <;> first | decide | norm_num

/-- 2^-32, in the range below 2^-31. -/
theorem val64_below_low31 : val64 0x3DF0000000000000#64 = some (2 ^ (-32 : Int)) := by
  rw [val64_positive_normal 991 0] <;> first | decide | norm_num

/-- -1. -/
theorem val64_minus_one : val64 0xBFF0000000000000#64 = some (-1) := by
  have hc : class64 0xBFF0000000000000#64 = .normal := by decide
  have hs : sign64 0xBFF0000000000000#64 = true := by decide
  have he : exp64 0xBFF0000000000000#64 = 1023 := by decide
  have hf : frac64 0xBFF0000000000000#64 = 0 := by decide
  simp only [val64, hc, hs, he, hf]; norm_num

/-- 2^-1074, the smallest subnormal. -/
theorem val64_smallest : val64 1#64 = some ((2 : ℚ) ^ (-1074 : Int)) := by
  have hc : class64 1#64 = .subnormal := by decide
  have hs : sign64 1#64 = false := by decide
  have hf : frac64 1#64 = 1 := by decide
  simp only [val64, hc, hs, hf]; norm_num

/-! Witnesses: concrete states and operands that meet the hypotheses of the obligations, clause by clause. -/

theorem witness_DecodeOfEncodeIsTheOperation : (Instr.decAlpha ⟨65535, 63, 7, 15⟩).wf = true := rfl

theorem witness_StepRunsTheDecodedRequest :
    (ready [.request 0x40000000004C59C40#67]).pending = .request 0x40000000004C59C40#67 :: [] ∧
    (Instr.encBeta 0#64).wf = true := ⟨rfl, rfl⟩

/-- A state in which the host holds one response and has one line to run. -/
def holding (r : Response) (a : HostAction) : State := { ready [a] with outcomes := [r] }

theorem witness_StepPassesNamedResults_encode :
    ∀ r : Option Response, r ∈ [none, some (.decoded 1#64), some (.encoded (.beta ⟨1, 31⟩)), some .invalidInput] →
      ∃ s : State, s.pending = .encodeResult .beta 0 :: [] ∧ s.outcomes[0]? = r := by
  intro r _
  exact ⟨{ ready [.encodeResult .beta 0] with outcomes := r.toList }, rfl, by cases r <;> rfl⟩

/-- A form of the line's kind, one of another kind, and each other case. -/
theorem witness_StepPassesNamedResults_decode :
    (∀ r : Option Response, r ∈ [some (.encoded (.beta ⟨1, 31⟩)), some (.encoded (.gamma ⟨1, 31⟩)), some .invalidInput, none,
        some (.decoded 1#64)] →
      ∃ s : State, s.pending = .decodeResult .beta 0 :: [] ∧ s.outcomes[0]? = r) ∧
    (Code.beta ⟨1, 31⟩).kind = .beta ∧ (Code.gamma ⟨1, 31⟩).kind ≠ .beta := by
  refine ⟨fun r _ => ?_, rfl, by decide⟩
  exact ⟨{ ready [.decodeResult .beta 0] with outcomes := r.toList }, rfl, by cases r <;> rfl⟩

theorem witness_NothingHappensBetweenRequests : State.reset.pending = [] := rfl

theorem witness_EveryRequestIsAnsweredByItsUnit :
    (ready [.request 0#67, .ioUpdate]).pending = .request 0#67 :: [.ioUpdate] := rfl

theorem witness_EveryOperationOnlyAddsItsResponse :
    Instr.encGamma 7#64 = CoefKind.gamma.encodeInstr 7#64 ∧ Instr.decDelta ⟨1, 2⟩ = (Code.delta ⟨1, 2⟩).decodeInstr := ⟨rfl, rfl⟩

theorem witness_RequestOrderIsImmaterial :
    (ready [.request 1#67, .request 2#67]).pending = .request 1#67 :: .request 2#67 :: [] ∧
    (ready [.request 2#67, .request 1#67]).pending = .request 2#67 :: .request 1#67 :: [] := ⟨rfl, rfl⟩

theorem witness_FailedRequestLeavesNoTrace :
    front .delta 0#64 = .invalidInput ∧
    (ready [.request (encode (.encDelta 0#64)), .request 5#67]).pending =
      .request (encode (CoefKind.delta.encodeInstr 0#64)) :: .request 5#67 :: [] ∧
    (ready [.request 5#67]).pending = .request 5#67 :: [] := ⟨by decide, rfl, rfl⟩

/-- Each ground of rejection. -/
theorem witness_InvalidInputExactlyOnTheTable_rejected :
    class64 0x8000000000000000#64 = .zero ∧ class64 0x7FF0000000000000#64 = .inf ∧ class64 0x7FF0000000000001#64 = .nan ∧
    (class64 0x8010000000000000#64 = .normal ∧ sign64 0x8010000000000000#64 = true) ∧
    (class64 0x800FFFFFFFFFFFFF#64 = .subnormal ∧ sign64 0x800FFFFFFFFFFFFF#64 = true) := by decide

/-- A negative operand of beta and a positive operand of alpha are not rejected. -/
theorem witness_InvalidInputExactlyOnTheTable_accepted :
    (¬(class64 0x8000000000000001#64 = .zero ∨ class64 0x8000000000000001#64 = .inf ∨ class64 0x8000000000000001#64 = .nan ∨
      ((class64 0x8000000000000001#64 = .normal ∨ class64 0x8000000000000001#64 = .subnormal) ∧
        sign64 0x8000000000000001#64 = true ∧ (CoefKind.beta = .alpha ∨ CoefKind.beta = .delta)))) ∧
    ¬(class64 1#64 = .zero ∨ class64 1#64 = .inf ∨ class64 1#64 = .nan ∨
      ((class64 1#64 = .normal ∨ class64 1#64 = .subnormal) ∧
        sign64 1#64 = true ∧ (CoefKind.alpha = .alpha ∨ CoefKind.alpha = .delta))) := by decide

theorem witness_ClampCases :
    (0 : Int) ≤ 63 ∧ (-1 : Int) < 0 ∧ (63 : Int) < 64 ∧ (0 : Int) ≤ 0 ∧ (63 : Int) ≤ 63 := by decide

theorem witness_LogarithmCeilings :
    0 < (⟨1, 0⟩ : Dyad).sig ∧ (⟨1, 0⟩ : Dyad).toRat ≤ 1 ∧ 1 ≤ (⟨1, 0⟩ : Dyad).toRat ∧
    (⟨1, 0⟩ : Dyad).toRat = (2 : ℚ) ^ (0 : Int) ∧ front .alpha 1#64 = .ok ⟨1, -1074⟩ :=
  ⟨by decide, by norm_num [Dyad.toRat], by norm_num [Dyad.toRat], by norm_num [Dyad.toRat], by decide⟩

theorem witness_RoundToNearest : rnd .even ⟨1, -1⟩ ≠ rnd .away ⟨1, -1⟩ := by decide

theorem witness_EvaluationFromTheBits_normal :
    (∃ q, val64 0x3FF0000000000000#64 = some q) ∧ class64 0x3FF0000000000000#64 = .normal := ⟨⟨_, val64_one⟩, by decide⟩

theorem witness_EvaluationFromTheBits_subnormal :
    (∃ q, val64 1#64 = some q) ∧ class64 1#64 = .subnormal ∧ 2 ^ 1 ≤ 2 * frac64 1#64 ∧ frac64 1#64 < 2 ^ 1 :=
  ⟨⟨_, val64_smallest⟩, by decide⟩

/-- Operands of `ENC.ALPHA` in each range, at its edges. -/
theorem witness_EncAlphaMeetsItsFormulas :
    (∃ q, val64 0x3FEFFFFFFFFFFFFF#64 = some q ∧ 0 < q ∧ q < 1) ∧
    (∃ q, val64 0x3FF0000000000000#64 = some q ∧ 0 < q ∧ 1 ≤ q ∧ q ≤ 1) ∧
    (∃ q, val64 0x3FF0000000000001#64 = some q ∧ 0 < q ∧ 1 < q) :=
  ⟨⟨_, val64_before_one, by norm_num, by norm_num⟩, ⟨_, val64_one, by norm_num, by norm_num, by norm_num⟩,
    ⟨_, val64_past_one, by norm_num, by norm_num⟩⟩

/-- Operands that stand for no positive real: NaN, zero, and (for alpha and delta) a negative real. -/
theorem witness_EncodeFormulas_rejected :
    (∀ q, val64 0x7FF8000000000000#64 = some q → q = 0) ∧ (∀ q, val64 0#64 = some q → q = 0) ∧
    (∀ q, val64 0xBFF0000000000000#64 = some q → q ≤ 0) := by
  have hn : class64 0x7FF8000000000000#64 = .nan := by decide
  have hz : class64 0#64 = .zero := by decide
  refine ⟨fun q h => ?_, fun q h => ?_, fun q h => ?_⟩
  · simp [val64, hn] at h
  · simp [val64, hz] at h; exact h.symm
  · rw [val64_minus_one] at h; cases h; norm_num

/-- `y = 7` at 128 and `y = 8` just above it (2.1): the two sides of the split. -/
theorem witness_EncAlphaMeetsItsFormulas_split :
    encodeAlpha .even 0x4060000000000000#64 = .ok ⟨65535, 0, 7, 0⟩ ∧
    encodeAlpha .even 0x4060200000000000#64 = .ok ⟨33024, 0, 7, 1⟩ := by decide +kernel

theorem witness_EncBetaGammaMeetTheirFormulas : ∃ q, val64 0xBFF0000000000000#64 = some q ∧ q ≠ 0 :=
  ⟨_, val64_minus_one, by norm_num⟩

theorem witness_EncDeltaMeetsItsFormulas : ∃ q, val64 1#64 = some q ∧ 0 < q := ⟨_, val64_smallest, by positivity⟩

theorem exec_encode_of_ok {x : Real64} :
    (∀ c, encodeAlpha .even x = .ok c → ∀ s : State,
      exec (.encAlpha x) s = .next { s with outcomes := s.outcomes ++ [.encoded (.alpha c)] }) ∧
    (∀ c, encodeBeta .even x = .ok c → ∀ s : State,
      exec (.encBeta x) s = .next { s with outcomes := s.outcomes ++ [.encoded (.beta c)] }) ∧
    (∀ c, encodeGamma .even x = .ok c → ∀ s : State,
      exec (.encGamma x) s = .next { s with outcomes := s.outcomes ++ [.encoded (.gamma c)] }) ∧
    (∀ c, encodeDelta .even x = .ok c → ∀ s : State,
      exec (.encDelta x) s = .next { s with outcomes := s.outcomes ++ [.encoded (.delta c)] }) := by
  refine ⟨fun c h s => ?_, fun c h s => ?_, fun c h s => ?_, fun c h s => ?_⟩
  · show execEncAlpha x s = _
    rw [execEncAlpha, show params.tie = .even from rfl, h]; rfl
  · show execEncBeta x s = _
    rw [execEncBeta, show params.tie = .even from rfl, h]; rfl
  · show execEncGamma x s = _
    rw [execEncGamma, show params.tie = .even from rfl, h]; rfl
  · show execEncDelta x s = _
    rw [execEncDelta, show params.tie = .even from rfl, h]; rfl

/-- An operation of each kind that returns a form, the smallest mantissa among them (2.1 to 2.3). -/
theorem witness_EncodedFieldsInRange (s : State) :
    exec (.encAlpha 1#64) s = .next { s with outcomes := s.outcomes ++ [.encoded (.alpha ⟨1, 63, 0, 0⟩)] } ∧
    exec (.encBeta 1#64) s = .next { s with outcomes := s.outcomes ++ [.encoded (.beta ⟨1, 31⟩)] } ∧
    exec (.encGamma 1#64) s = .next { s with outcomes := s.outcomes ++ [.encoded (.gamma ⟨1, 31⟩)] } ∧
    exec (.encDelta 1#64) s = .next { s with outcomes := s.outcomes ++ [.encoded (.delta ⟨1, 31⟩)] } :=
  ⟨exec_encode_of_ok.1 _ (by decide +kernel) s, exec_encode_of_ok.2.1 _ (by decide +kernel) s,
    exec_encode_of_ok.2.2.1 _ (by decide +kernel) s, exec_encode_of_ok.2.2.2 _ (by decide +kernel) s⟩

/-- The ranges A to E of R72, at their edges. -/
theorem witness_AlphaClosedForm :
    (∃ q, val64 0x4150000000000001#64 = some q ∧ 0 < q ∧ 2 ^ 22 < q) ∧
    (∃ q, val64 0x4150000000000000#64 = some q ∧ 0 < q ∧ 1 < q ∧ q ≤ 2 ^ 22) ∧
    (∃ q, val64 0x3FF0000000000000#64 = some q ∧ 0 < q ∧ q = 1) ∧
    (∃ q, val64 0x3C00000000000000#64 = some q ∧ 0 < q ∧ (2 : ℚ) ^ (-63 : Int) ≤ q ∧ q < 1) ∧
    (∃ q, val64 0x3BF0000000000000#64 = some q ∧ 0 < q ∧ q < (2 : ℚ) ^ (-63 : Int)) :=
  ⟨⟨_, val64_past_top, by norm_num, by norm_num⟩, ⟨_, val64_top, by norm_num, by norm_num, by norm_num⟩,
    ⟨_, val64_one, by norm_num, rfl⟩, ⟨_, val64_low, by norm_num, by norm_num, by norm_num⟩,
    ⟨_, val64_below_low, by norm_num, by norm_num⟩⟩

/-- R72 case B with the carry: at 2 the scaled mantissa is 65536, past 65535 and a half. -/
theorem witness_AlphaClosedForm_carry :
    val64 0x4000000000000000#64 = some 2 ∧ (65535 + 1 / 2 : ℚ) ≤ 2 * (2 : ℚ) ^ (16 - ((1 : Nat) : Int)) :=
  ⟨val64_two, by norm_num⟩

/-- The three ranges of R73 and of R74, at their edges, a negative operand among them. -/
theorem witness_BetaGammaClosedForm_DeltaClosedForm :
    (∃ v, val64 0xBFF0000000000000#64 = some v ∧ v ≠ 0 ∧ 1 ≤ |v|) ∧
    (∃ v, val64 0x3FF0000000000000#64 = some v ∧ 0 < v ∧ v ≠ 0 ∧ 1 ≤ |v| ∧ 1 ≤ v) ∧
    (∃ v, val64 0x3E00000000000000#64 = some v ∧ 0 < v ∧ v ≠ 0 ∧ (2 : ℚ) ^ (-31 : Int) ≤ |v| ∧ |v| < 1 ∧
      (2 : ℚ) ^ (-31 : Int) ≤ v ∧ v < 1) ∧
    (∃ v, val64 0x3DF0000000000000#64 = some v ∧ 0 < v ∧ v ≠ 0 ∧ |v| < (2 : ℚ) ^ (-31 : Int) ∧ v < (2 : ℚ) ^ (-31 : Int)) := by
  refine ⟨⟨_, val64_minus_one, ?_⟩, ⟨_, val64_one, ?_⟩, ⟨_, val64_low31, ?_⟩, ⟨_, val64_below_low31, ?_⟩⟩ <;> norm_num

theorem witness_CanonicalFormsAreExactlyTheEncodedOnes : (Code.alpha ⟨32768, 0, 7, 15⟩).canonical = true := by decide

/-- `a2` and `a3` enter by their sum: `(7, 0)` and `(0, 7)`; and a zero mantissa. -/
theorem witness_DecAlphaValue :
    (⟨65535, 0, 7, 0⟩ : AlphaCode).a0 = (⟨65535, 0, 0, 7⟩ : AlphaCode).a0 ∧
    (⟨65535, 0, 7, 0⟩ : AlphaCode).a1 = (⟨65535, 0, 0, 7⟩ : AlphaCode).a1 ∧
    (⟨65535, 0, 7, 0⟩ : AlphaCode).a2.toNat + (⟨65535, 0, 7, 0⟩ : AlphaCode).a3.toNat =
      (⟨65535, 0, 0, 7⟩ : AlphaCode).a2.toNat + (⟨65535, 0, 0, 7⟩ : AlphaCode).a3.toNat ∧
    (⟨0, 63, 7, 15⟩ : AlphaCode).a0 = 0 := by decide

theorem witness_DecBetaGammaValue_DecDeltaValue : (⟨0, 31⟩ : BetaCode).b0 = 0 ∧ (⟨0, 31⟩ : DeltaCode).d0 = 0 := by decide

/-- A mantissa other than 0 of each kind, and one that is 0. -/
theorem witness_DecodedIsZeroOrPositiveNormal :
    mantissa (.alpha ⟨1, 63, 0, 0⟩) ≠ 0 ∧ mantissa (.beta ⟨1, 31⟩) ≠ 0 ∧ mantissa (.gamma ⟨131071, 0⟩) ≠ 0 ∧
    mantissa (.delta ⟨1, 31⟩) ≠ 0 ∧ mantissa (.delta ⟨0, 7⟩) = 0 := by decide

theorem witness_DecodeInjectiveOnCanonicalForms (s : State) :
    (Code.beta ⟨1, 31⟩).kind = (Code.beta ⟨1, 31⟩).kind ∧ (Code.beta ⟨1, 31⟩).canonical = true ∧
    ∃ y, exec (Code.beta ⟨1, 31⟩).decodeInstr s = .next { s with outcomes := s.outcomes ++ [.decoded y] } ∧
      exec (Code.beta ⟨1, 31⟩).decodeInstr s = .next { s with outcomes := s.outcomes ++ [.decoded y] } :=
  ⟨rfl, by decide, _, rfl, rfl⟩

/-- The ranges of R93 for alpha, with what the operand encodes to (2.1). -/
theorem witness_AlphaDecodeAfterEncode :
    (val64 0x4150000000000001#64 = some (2 ^ 22 + 2 ^ (-30 : Int)) ∧ (2 ^ 22 : ℚ) < 2 ^ 22 + 2 ^ (-30 : Int) ∧
      encodeAlpha .even 0x4150000000000001#64 = .ok ⟨65535, 0, 7, 15⟩) ∧
    (val64 0x3FF8000000000000#64 = some (3 / 2) ∧ (1 : ℚ) < 3 / 2 ∧ (3 / 2 : ℚ) ≤ 2 ^ 22 ∧
      encodeAlpha .even 0x3FF8000000000000#64 = .ok ⟨49152, 0, 1, 0⟩) ∧
    (val64 0x4000000000000000#64 = some 2 ∧ (1 : ℚ) < 2 ∧ (2 : ℚ) ≤ 2 ^ 22 ∧
      encodeAlpha .even 0x4000000000000000#64 = .ok ⟨65535, 0, 1, 0⟩) ∧
    (val64 0x3FF0000000000000#64 = some 1 ∧ encodeAlpha .even 0x3FF0000000000000#64 = .ok ⟨65535, 0, 0, 0⟩) ∧
    (val64 0x3FE0000000000000#64 = some (1 / 2) ∧ (2 : ℚ) ^ (-63 : Int) ≤ 1 / 2 ∧ (1 / 2 : ℚ) < 1 ∧
      encodeAlpha .even 0x3FE0000000000000#64 = .ok ⟨65535, 1, 0, 0⟩) ∧
    (val64 0x3BF0000000000000#64 = some (2 ^ (-64 : Int)) ∧ (0 : ℚ) < 2 ^ (-64 : Int) ∧
      (2 : ℚ) ^ (-64 : Int) < 2 ^ (-63 : Int) ∧ encodeAlpha .even 0x3BF0000000000000#64 = .ok ⟨32768, 63, 0, 0⟩) :=
  ⟨⟨val64_past_top, by norm_num, by decide +kernel⟩, ⟨val64_three_halves, by norm_num, by norm_num, by decide +kernel⟩,
    ⟨val64_two, by norm_num, by norm_num, by decide +kernel⟩, ⟨val64_one, by decide +kernel⟩,
    ⟨val64_half, by norm_num, by norm_num, by decide +kernel⟩, ⟨val64_below_low, by norm_num, by norm_num, by decide +kernel⟩⟩

/-- The ranges of R93 for beta and delta, with what the operand encodes to (2.2, 2.3). -/
theorem witness_BetaGammaDeltaDecodeAfterEncode :
    (val64 0x3FF0000000000000#64 = some 1 ∧ encodeBeta .even 0x3FF0000000000000#64 = .ok ⟨131071, 0⟩ ∧
      encodeDelta .even 0x3FF0000000000000#64 = .ok ⟨32767, 0⟩) ∧
    (val64 0x3E00000000000000#64 = some (2 ^ (-31 : Int)) ∧ (2 : ℚ) ^ (-31 : Int) < 1 ∧
      encodeBeta .even 0x3E00000000000000#64 = .ok ⟨131071, 31⟩ ∧ encodeDelta .even 0x3E00000000000000#64 = .ok ⟨32767, 31⟩) ∧
    (val64 0x3DF0000000000000#64 = some (2 ^ (-32 : Int)) ∧ (2 : ℚ) ^ (-32 : Int) < 2 ^ (-31 : Int) ∧
      encodeBeta .even 0x3DF0000000000000#64 = .ok ⟨65536, 31⟩ ∧ encodeDelta .even 0x3DF0000000000000#64 = .ok ⟨16384, 31⟩) :=
  ⟨⟨val64_one, by decide +kernel, by decide +kernel⟩, ⟨val64_low31, by norm_num, by decide +kernel, by decide +kernel⟩,
    ⟨val64_below_low31, by norm_num, by decide +kernel, by decide +kernel⟩⟩

/-- Part 5 at the ends of the ranges of `k`. -/
theorem witness_ReencodingDrifts_ReencodingFixedPoints :
    encodeAlpha .even (decodeAlpha ⟨65535, 62, 0, 0⟩) = .ok ⟨65535, 63, 0, 0⟩ ∧
    encodeAlpha .even (decodeAlpha ⟨65535, 63, 0, 0⟩) = .ok ⟨65535, 63, 0, 0⟩ ∧
    encodeAlpha .even (decodeAlpha ⟨32768, 0, 1, 0⟩) = .ok ⟨65535, 0, 0, 0⟩ ∧
    encodeAlpha .even (decodeAlpha ⟨32768, 0, 7, 15⟩) = .ok ⟨65535, 0, 7, 14⟩ ∧
    encodeBeta .even (decodeBeta ⟨131071, 30⟩) = .ok ⟨131071, 31⟩ ∧
    encodeDelta .even (decodeDelta ⟨32767, 0⟩) = .ok ⟨32767, 1⟩ := by decide +kernel

theorem witness_DecodedValueIsAcceptedUnlessZero :
    mantissa (.alpha ⟨0, 0, 0, 0⟩) = 0 ∧ mantissa (.gamma ⟨1, 0⟩) ≠ 0 := by decide

theorem witness_RoundTripIsMonotone :
    val64 0x3FE0000000000000#64 = some (1 / 2) ∧ val64 0x3FF8000000000000#64 = some (3 / 2) ∧
    (1 / 2 : ℚ) ≠ 0 ∧ |(1 / 2 : ℚ)| ≤ |3 / 2| ∧
    encodeAlpha .even 0x3FE0000000000000#64 = .ok ⟨65535, 1, 0, 0⟩ ∧ encodeAlpha .even 0x3FF8000000000000#64 = .ok ⟨49152, 0, 1, 0⟩ ∧
    encodeBeta .even 0x3FE0000000000000#64 = .ok ⟨131071, 1⟩ ∧ encodeBeta .even 0x3FF8000000000000#64 = .ok ⟨131071, 0⟩ ∧
    encodeGamma .even 0x3FE0000000000000#64 = .ok ⟨131071, 1⟩ ∧ encodeGamma .even 0x3FF8000000000000#64 = .ok ⟨131071, 0⟩ ∧
    encodeDelta .even 0x3FE0000000000000#64 = .ok ⟨32767, 1⟩ ∧ encodeDelta .even 0x3FF8000000000000#64 = .ok ⟨32767, 0⟩ :=
  ⟨val64_half, val64_three_halves, by norm_num, by norm_num [abs_of_pos], by decide +kernel⟩

/-- A state that keeps the invariant and holds something, and its step. -/
theorem witness_StepKeepsTheInvariant :
    (holding (.encoded (.beta ⟨1, 31⟩)) (.writeByte 0xFFFF#16 1#8)).inv = true ∧
    ∃ t, step (holding (.encoded (.beta ⟨1, 31⟩)) (.writeByte 0xFFFF#16 1#8)) = .next t := ⟨by decide, _, rfl⟩

/-- A well-formed program that goes on, and one that stops at an `InvalidInput` outcome. -/
theorem witness_WellFormedProgramStopsOnlyOnInvalidInput :
    (holding (.decoded 1#64) (.encodeResult .beta 0)).wellTyped [.real] = true ∧
    (∃ t, step (holding (.decoded 1#64) (.encodeResult .beta 0)) = .next t) ∧
    (holding .invalidInput (.decodeResult .beta 0)).wellTyped [.code .beta] = true ∧
    step (holding .invalidInput (.decodeResult .beta 0)) = .fault .nothingToPass := ⟨by decide, ⟨_, rfl⟩, by decide, rfl⟩

/-- Steps that change what the device uses, what it has received, and what the host has read. -/
theorem witness_OnlyTransportCallsChangeTheTransport :
    (∃ t, step { ready [.ioUpdate] with transport := ⟨[(0, 1#8)], []⟩ } = .next t ∧
      t.transport.applied ≠ [] ∧ t.transport.received ≠ [(0, 1#8)]) ∧
    (∃ t, step (ready [.writeByte 0#16 1#8]) = .next t ∧ t.transport.received ≠ []) ∧
    (∃ t, step (ready [.readByte 0#16]) = .next t ∧ t.reads ≠ []) :=
  ⟨⟨_, rfl, by decide, by decide⟩, ⟨_, rfl, by decide⟩, ⟨_, rfl, by simp [State.readByte, State.nextLine]⟩⟩

/-- Two writes to the last and first address, then the commit. -/
theorem witness_WritesTakeEffectTogetherAtTheCommit :
    (ready [.writeByte 0xFFFF#16 1#8, .writeByte 0#16 2#8, .ioUpdate]).pending =
      [(0xFFFF#16, 1#8), (0#16, 2#8)].map (fun w => HostAction.writeByte w.1 w.2) ++ .ioUpdate :: [] ∧
    Memory.wf (ready []).transport.received = true ∧ Memory.wf (ready []).transport.applied = true := ⟨rfl, rfl, rfl⟩

/-- A read of a byte written and not committed, and of one only applied. -/
theorem witness_ReadByteReturnsOneOfTheTwo :
    (ready [.readByte 0#16]).pending = .readByte 0#16 :: [] ∧
    Memory.read [(0, 1#8)] (0#16).toNat = some 1#8 ∧ Memory.read [] (0#16).toNat = none := ⟨rfl, rfl, rfl⟩

theorem witness_CommittedProgramLeavesNothingWaiting :
    everyWriteCommitted (ready [.writeByte 0#16 1#8, .ioUpdate]).pending = true ∧
    (ready [.writeByte 0#16 1#8, .ioUpdate]).transport.received = [] ∧
    ∃ t, core.run 2 (ready [.writeByte 0#16 1#8, .ioUpdate]) = .next t := ⟨by decide, rfl, _, rfl⟩

/-- A coefficient of two bytes, written whole and about to be committed. -/
theorem witness_CoefficientCommittedWhole :
    commitsWhole [0x318#16, 0x319#16] [] (ready [.writeByte 0x318#16 1#8, .writeByte 0x319#16 2#8, .ioUpdate]).pending = true ∧
    Memory.wf (ready []).transport.received = true ∧
    (∀ a ∈ [0x318#16, 0x319#16], Memory.read (ready []).transport.received a.toNat = none) ∧
    ∃ t, core.run 2 (ready [.writeByte 0x318#16 1#8, .writeByte 0x319#16 2#8, .ioUpdate]) = .next t ∧
      t.pending = .ioUpdate :: [] := ⟨by decide, rfl, fun _ _ => rfl, _, rfl, rfl⟩

/-- A host that commits in the middle of a coefficient does not do its duty. -/
theorem test_commitsWhole_refuses :
    commitsWhole [0x318#16, 0x319#16] [] [.writeByte 0x318#16 1#8, .ioUpdate, .writeByte 0x319#16 2#8, .ioUpdate] = false ∧
    everyWriteCommitted [.ioUpdate, .writeByte 0x318#16 1#8] = false ∧
    writesNone [0x318#16] [.writeByte 0x318#16 1#8] = false := by decide

theorem witness_NothingWrittenMeansNothingChanged :
    writesNone [0x318#16] (ready [.writeByte 0x400#16 1#8, .ioUpdate]).pending = true ∧
    (ready [.writeByte 0x400#16 1#8, .ioUpdate]).inv = true ∧
    (∀ a ∈ [0x318#16], Memory.read (ready []).transport.received a.toNat = none) ∧
    ∃ t, core.run 2 (ready [.writeByte 0x400#16 1#8, .ioUpdate]) = .next t := ⟨by decide, by decide, fun _ _ => rfl, _, rfl⟩

end Sys2Proof.Tests
end

section
/-! The primitives of the formulas (R10, R12, R13), their evaluation from the bits of an operand (R76), and gamma's computation as
beta's on the magnitude (R67, R68, R88). -/

namespace Sys2Proof.Machine

/-! Clamping (R10). -/

theorem clamp_eq_min_max {v lo hi : Int} (h : lo ≤ hi) : clamp v lo hi = min (max v lo) hi := by
  rcases le_total v lo with hv | hv
  · rw [clamp_of_le h hv, max_eq_right hv, min_eq_left h]
  · rw [max_eq_left hv]
    rcases le_total v hi with hv' | hv'
    · rw [clamp_of_mem hv hv', min_eq_left hv']
    · rw [clamp_of_ge h hv', min_eq_right hv']

/-- Settles O15: the three cases are the clamp laws, and they are the cases of `min` and `max`. -/
theorem clampCases : Obligations.ClampCases := by
  intro v lo hi h
  exact ⟨fun hv => clamp_of_le h hv.le, fun hv => clamp_of_ge h hv.le, clamp_of_mem, clamp_eq_min_max h⟩

/-! Logarithm ceilings (R12). -/

theorem isClog2_iff {q : Dyad} (h : 0 < q.sig) (k : Int) : IsClog2 q.toRat k ↔ k = clog2 q :=
  ⟨fun hk => hk.unique (clog2_spec h), fun hk => hk ▸ clog2_spec h⟩

theorem isNclog2_iff {q : Dyad} (h : 0 < q.sig) (k : Int) : IsNclog2 q.toRat k ↔ k = nclog2 q :=
  ⟨fun hk => hk.unique (nclog2_spec h), fun hk => hk ▸ nclog2_spec h⟩

theorem isNclog2_neg_log {q : ℚ} (h : 0 < q) : IsNclog2 q (-Int.log 2 q) := by
  refine ⟨?_, ?_⟩
  · rw [neg_neg]; exact Int.zpow_log_le_self one_lt_two h
  · rw [sub_neg_eq_add, add_comm]; exact Int.lt_zpow_succ_log_self one_lt_two q

theorem isClog2_two_zpow (j : Int) : IsClog2 ((2 : ℚ) ^ j) j :=
  ⟨two_zpow_lt.mpr (by omega), le_rfl⟩

theorem isNclog2_two_zpow (j : Int) : IsNclog2 ((2 : ℚ) ^ j) (-j) :=
  ⟨two_zpow_le.mpr (by omega), two_zpow_lt.mpr (by omega)⟩

theorem log_ceilings_of_two_zpow {q : Dyad} (h : 0 < q.sig) {j : Int} (hq : q.toRat = (2 : ℚ) ^ j) :
    clog2 q = j ∧ nclog2 q = -j :=
  ⟨((isClog2_iff h j).mp (hq ▸ isClog2_two_zpow j)).symm, ((isNclog2_iff h (-j)).mp (hq ▸ isNclog2_two_zpow j)).symm⟩

theorem clog2_nonpos {q : Dyad} (h : 0 < q.sig) (hq : q.toRat ≤ 1) : clog2 q ≤ 0 :=
  (clog2_spec h).le (by simpa using hq)

theorem nclog2_nonpos {q : Dyad} (h : 0 < q.sig) (hq : 1 ≤ q.toRat) : nclog2 q ≤ 0 :=
  (nclog2_spec h).le (by simpa using hq)

/-- Settles O16: each ceiling meets its inequalities, and what meets them is unique. -/
theorem logarithmCeilings : Obligations.LogarithmCeilings := by
  refine ⟨fun q h => ⟨isClog2_iff h, isNclog2_iff h, ?_, clog2_nonpos h, nclog2_nonpos h,
    fun j => log_ceilings_of_two_zpow h⟩, fun k x q hq => ?_⟩
  · exact ((isNclog2_iff h _).mp (isNclog2_neg_log (toRat_pos h))).symm
  · obtain ⟨-, -, -, hpos⟩ := front_ok hq
    exact toRat_pos hpos

/-! Rounding (R13). -/

theorem isRnd_iff (tie : Tie) (q : Dyad) (r : Nat) : IsRnd tie q.toRat r ↔ r = rnd tie q :=
  ⟨fun hr => hr.unique (rnd_spec tie q), fun hr => hr ▸ rnd_spec tie q⟩

theorem toRat_nonneg (q : Dyad) : 0 ≤ q.toRat :=
  mul_nonneg q.sig.cast_nonneg (two_zpow_pos q.exp).le

/-- Away from an exact half the tie rule does not matter. -/
theorem IsRnd.of_ne_half {tie : Tie} {q : ℚ} {r : Nat} (h : IsRnd tie q r) (hne : |(r : ℚ) - q| ≠ 1 / 2) (tie' : Tie) :
    IsRnd tie' q r :=
  ⟨h.1, fun he => absurd he hne⟩

/-- At an exact half, `TIE = away` rounds up: twice the value is odd. -/
theorem IsRnd.odd_of_away_half {q : ℚ} {r : Nat} (h₀ : 0 ≤ q) (h : IsRnd .away q r) (hr : |(r : ℚ) - q| = 1 / 2) :
    ∃ n : Nat, q * 2 = 2 * n + 1 := by
  have hlt : q < r := h.2 hr
  rw [abs_of_pos (sub_pos.mpr hlt)] at hr
  obtain ⟨n, rfl⟩ : ∃ n, r = n + 1 := Nat.exists_eq_add_one.mpr (by exact_mod_cast h₀.trans_lt hlt)
  push_cast at hr
  exact ⟨n, by linarith⟩

/-- Settles O17: `rnd` meets the definition of nearest, which one integer meets; the rules part only at an exact half. -/
theorem roundToNearest : Obligations.RoundToNearest := by
  refine ⟨isRnd_iff, by decide, by decide, fun q hne => ?_⟩
  have ha := rnd_spec .away q
  by_cases hr : |(rnd .away q : ℚ) - q.toRat| = 1 / 2
  · exact ha.odd_of_away_half (toRat_nonneg q) hr
  · exact absurd ((isRnd_iff .even q _).mp (ha.of_ne_half hr .even)).symm hne

/-! Evaluation from the bits (R76). -/

theorem toRat_lt_one_iff {q : Dyad} (h : 0 < q.sig) : q.toRat < 1 ↔ 1 ≤ nclog2 q := by
  constructor
  · intro hq
    exact (nclog2_spec h).ge (by simpa using hq)
  · intro hk
    calc q.toRat < 2 ^ (1 - nclog2 q) := (nclog2_spec h).2
      _ ≤ 2 ^ (0 : Int) := two_zpow_le.mpr (by omega)
      _ = 1 := zpow_zero 2

theorem toRat_eq_one_iff {q : Dyad} (h : 0 < q.sig) : q.toRat = 1 ↔ nclog2 q = 0 ∧ clog2 q = 0 := by
  constructor
  · intro hq
    obtain ⟨hc, hn⟩ := log_ceilings_of_two_zpow h (hq.trans (zpow_zero 2).symm)
    exact ⟨hn, hc⟩
  · rintro ⟨hn, hc⟩
    have hle := (clog2_spec h).2
    have hge := (nclog2_spec h).1
    rw [hc, zpow_zero] at hle
    rw [hn, neg_zero, zpow_zero] at hge
    exact le_antisymm hle hge

theorem abs_val64 {x : Real64} {q : ℚ} (hf : FiniteNonzero x) (h : val64 x = some q) : |q| = (mag64 x).toRat := by
  have hp := toRat_pos (mag64_sig_pos hf)
  rw [val64_of_finiteNonzero hf, Option.some.injEq] at h
  subst h
  cases sign64 x <;> simp [abs_of_pos hp]

theorem mag64_of_normal {x : Real64} (h : class64 x = .normal) :
    mag64 x = ⟨2 ^ 52 + frac64 x, (exp64 x : Int) - 1075⟩ :=
  if_neg ((class64_normal_iff x).mp h).1

theorem mag64_of_subnormal {x : Real64} (h : class64 x = .subnormal) : mag64 x = ⟨frac64 x, -1074⟩ :=
  if_pos ((class64_subnormal_iff x).mp h).1

/-- The leading bit of a normal significand is bit 52. -/
theorem log2_significand (x : Real64) : (2 ^ 52 + frac64 x).log2 = 52 := by
  have := frac64_lt x
  exact (Nat.log2_eq_iff (by omega)).mpr (by omega)

theorem nclog2_of_normal {x : Real64} (h : class64 x = .normal) : nclog2 (mag64 x) = -((exp64 x : Int) - 1023) := by
  rw [mag64_of_normal h, nclog2, log2_significand]
  push_cast; ring

theorem clog2_of_normal {x : Real64} (h : class64 x = .normal) :
    clog2 (mag64 x) = if frac64 x = 0 then (exp64 x : Int) - 1023 else (exp64 x : Int) - 1023 + 1 := by
  rw [mag64_of_normal h, clog2]
  simp only [log2_significand]
  split_ifs <;> omega

theorem nclog2_of_subnormal {x : Real64} (h : class64 x = .subnormal) {l : Nat} (h₁ : 2 ^ l ≤ 2 * frac64 x)
    (h₂ : frac64 x < 2 ^ l) : nclog2 (mag64 x) = 1075 - l := by
  have hf := ((class64_subnormal_iff x).mp h).2
  obtain ⟨m, rfl⟩ : ∃ m, l = m + 1 := Nat.exists_eq_add_one.mpr (Nat.pos_of_ne_zero fun hl => by subst hl; omega)
  have hlog : (frac64 x).log2 = m := (Nat.log2_eq_iff hf).mpr ⟨by omega, h₂⟩
  rw [mag64_of_subnormal h, nclog2, hlog]
  push_cast; ring

/-- A subnormal magnitude lies far below the range of every exponent field. -/
theorem nclog2_of_subnormal_ge {x : Real64} (h : class64 x = .subnormal) : 1023 ≤ nclog2 (mag64 x) := by
  have hlog : (frac64 x).log2 < 52 := (Nat.log2_lt ((class64_subnormal_iff x).mp h).2).mpr (frac64_lt x)
  rw [mag64_of_subnormal h]
  dsimp only [nclog2]
  omega

/-- A normal magnitude lies in the binade its exponent field names. -/
theorem mag64_binade_of_normal {x : Real64} (h : class64 x = .normal) :
    (2 : ℚ) ^ ((exp64 x : Int) - 1023) ≤ (mag64 x).toRat ∧ (mag64 x).toRat < (2 : ℚ) ^ ((exp64 x : Int) - 1023 + 1) := by
  obtain ⟨hlo, hhi⟩ := nclog2_spec (mag64_sig_pos (.inl h))
  rw [nclog2_of_normal h, neg_neg] at hlo
  rw [nclog2_of_normal h, sub_neg_eq_add, add_comm] at hhi
  exact ⟨hlo, hhi⟩

theorem mag64_lt_one_iff_of_normal {x : Real64} (h : class64 x = .normal) : (mag64 x).toRat < 1 ↔ exp64 x < 1023 := by
  rw [toRat_lt_one_iff (mag64_sig_pos (.inl h)), nclog2_of_normal h]
  omega

theorem mag64_eq_one_iff_of_normal {x : Real64} (h : class64 x = .normal) :
    (mag64 x).toRat = 1 ↔ exp64 x = 1023 ∧ frac64 x = 0 := by
  rw [toRat_eq_one_iff (mag64_sig_pos (.inl h)), nclog2_of_normal h, clog2_of_normal h]
  split_ifs <;> omega

theorem toRat_scale_mag64_of_normal {x : Real64} (h : class64 x = .normal) (n : Int) :
    (scale (mag64 x) n).toRat = ((2 ^ 52 + frac64 x : Nat) : ℚ) * (2 : ℚ) ^ ((exp64 x : Int) - 1075 + n) := by
  rw [mag64_of_normal h]; rfl

theorem mag64_lt_one_of_subnormal {x : Real64} (h : class64 x = .subnormal) : (mag64 x).toRat < 1 := by
  have := nclog2_of_subnormal_ge h
  exact (toRat_lt_one_iff (mag64_sig_pos (.inr h))).mpr (by omega)

theorem toRat_scale_mag64_of_subnormal {x : Real64} (h : class64 x = .subnormal) (n : Int) :
    (scale (mag64 x) n).toRat = (frac64 x : ℚ) * (2 : ℚ) ^ (-1074 + n) := by
  rw [mag64_of_subnormal h]; rfl

/-- Settles O18: the leading bit of the significand gives the ceilings, and these the comparisons with 1. -/
theorem evaluationFromTheBits : Obligations.EvaluationFromTheBits := by
  intro x q hq
  refine ⟨fun h => ?_, fun h l h₁ h₂ => ?_⟩
  · rw [abs_val64 (.inl h) hq]
    obtain ⟨hlo, hhi⟩ := mag64_binade_of_normal h
    exact ⟨hlo, hhi, nclog2_of_normal h, clog2_of_normal h, mag64_lt_one_iff_of_normal h, mag64_eq_one_iff_of_normal h,
      fun n => ⟨toRat_scale _ n, (toRat_scale _ n).symm.trans (toRat_scale_mag64_of_normal h n)⟩⟩
  · rw [abs_val64 (.inr h) hq]
    have hge := nclog2_of_subnormal_ge h
    exact ⟨mag64_lt_one_of_subnormal h, nclog2_of_subnormal h h₁ h₂, clamp_of_ge (by omega) (by omega),
      clamp_of_ge (by omega) (by omega), toRat_scale_mag64_of_subnormal h⟩

/-! The sign of the operand of beta and gamma (R67, R68). -/

/-- The operand check of a kind that discards the sign reads only the exponent and fraction fields. -/
theorem front_congr {k : CoefKind} (hk : needsPositive k = false) {x y : Real64} (he : exp64 x = exp64 y)
    (hf : frac64 x = frac64 y) : front k x = front k y := by
  have hc : class64 x = class64 y := by simp only [class64, he, hf]
  have hm : mag64 x = mag64 y := by simp only [mag64, he, hf]
  simp only [front_eq, FiniteNonzero, hc, hm, hk, Bool.false_eq_true, and_false]

/-- Two patterns that differ at most in bit 63. -/
def EqualBelowSign (x y : Real64) : Prop := ∀ i < 63, x.getLsbD i = y.getLsbD i

theorem EqualBelowSign.exp64_eq {x y : Real64} (h : EqualBelowSign x y) : exp64 x = exp64 y := by
  refine congrArg BitVec.toNat (BitVec.eq_of_getElem_eq fun i hi => ?_)
  rw [BitVec.getElem_extractLsb', BitVec.getElem_extractLsb', h _ (by omega)]

theorem EqualBelowSign.frac64_eq {x y : Real64} (h : EqualBelowSign x y) : frac64 x = frac64 y := by
  refine congrArg BitVec.toNat (BitVec.eq_of_getElem_eq fun i hi => ?_)
  rw [BitVec.getElem_extractLsb', BitVec.getElem_extractLsb', h _ (by omega)]

theorem EqualBelowSign.exec_eq {x y : Real64} (h : EqualBelowSign x y) (s : State) :
    exec (.encBeta x) s = exec (.encBeta y) s ∧ exec (.encGamma x) s = exec (.encGamma y) s := by
  have hb : front .beta x = front .beta y := front_congr rfl h.exp64_eq h.frac64_eq
  have hg : front .gamma x = front .gamma y := front_congr rfl h.exp64_eq h.frac64_eq
  simp only [Machine.exec_eq, response, encodeBeta, encodeGamma, hb, hg, and_self]

theorem signBit_getLsbD : ∀ i < 63, (0x8000000000000000#64).getLsbD i = false := by decide

theorem signMask_getLsbD : ∀ i < 63, (0x7FFFFFFFFFFFFFFF#64).getLsbD i = true := by decide

theorem equalBelowSign_flip (x : Real64) : EqualBelowSign (x ^^^ 0x8000000000000000#64) x := by
  intro i hi
  rw [BitVec.getLsbD_xor, signBit_getLsbD i hi, Bool.xor_false]

theorem equalBelowSign_clear (x : Real64) : EqualBelowSign (x &&& 0x7FFFFFFFFFFFFFFF#64) x := by
  intro i hi
  rw [BitVec.getLsbD_and, signMask_getLsbD i hi, Bool.and_true]

/-- Settles O27: neither operation reads bit 63, the only one that flipping or clearing the sign touches. -/
theorem betaGammaDiscardTheSign : Obligations.BetaGammaDiscardTheSign := by
  intro s x
  obtain ⟨hbf, hgf⟩ := (equalBelowSign_flip x).exec_eq s
  obtain ⟨hbc, hgc⟩ := (equalBelowSign_clear x).exec_eq s
  exact ⟨hbf, hgf, hbc, hgc⟩

/-! Gamma is beta (R68, R88). -/

/-- Gamma's outcome is beta's, its fields renamed (R68). -/
theorem encodeGamma_eq (tie : Tie) (x : Real64) :
    encodeGamma tie x = (encodeBeta tie x).map fun c => ⟨c.b0, c.b1⟩ := by
  have hfront : front .gamma x = front .beta x := rfl
  rw [encodeGamma, encodeBeta, hfront]
  cases front .beta x with
  | ok q => exact congrArg _ (gammaFields_eq tie q)
  | invalidInput => rfl

/-- Settles O28: both encode operations end in the one computation, and so do both decode operations. -/
theorem gammaEqualsBeta : Obligations.GammaEqualsBeta := by
  refine ⟨fun s x => ?_, fun s c => ?_⟩
  · simp only [exec_eq, response, encodeGamma_eq]
    cases encodeBeta params.tie x with
    | ok c => exact .inr ⟨c, rfl, rfl⟩
    | invalidInput => exact .inl ⟨rfl, rfl⟩
  · simp only [exec_eq, response, decodeGamma_eq]

end Sys2Proof.Machine
end

section
/-! The block's operations as functions of the request alone (R20, R30, R38, R41), the request word as the instruction it was
encoded from (R47, R58), and host programs in which every name stands for a result of the type it needs (R26, R57). -/

namespace Sys2Proof

/-! The operation of a request word (R47, R58). -/

/-- Every operation is the encode operation of a kind or the decode operation of an encoded form. -/
theorem Instr.eq_encodeInstr_or_decodeInstr (i : Instr) :
    (∃ (k : CoefKind) (x : Real64), i = k.encodeInstr x) ∨ ∃ c : Code, i = c.decodeInstr := by
  cases i with
  | encAlpha x => exact .inl ⟨.alpha, x, rfl⟩
  | encBeta x => exact .inl ⟨.beta, x, rfl⟩
  | encGamma x => exact .inl ⟨.gamma, x, rfl⟩
  | encDelta x => exact .inl ⟨.delta, x, rfl⟩
  | decAlpha c => exact .inr ⟨.alpha c, rfl⟩
  | decBeta c => exact .inr ⟨.beta c, rfl⟩
  | decGamma c => exact .inr ⟨.gamma c, rfl⟩
  | decDelta c => exact .inr ⟨.delta c, rfl⟩

/-- The decoder in terms of the two fields of the request word. -/
theorem decode_append (op : BitVec 3) (o : BitVec 64) :
    decode (op ++ o) =
      if op.getLsbD 2 then (Code.unpack (o.extractLsb' 0 29) (.ofBits (op.extractLsb' 0 2))).decodeInstr
      else (CoefKind.ofBits (op.extractLsb' 0 2)).encodeInstr o := by
  rw [decode, request_unit, request_kind, request_opnd, request_code]

theorem CoefKind.opnd_encodeInstr (k : CoefKind) (x : Real64) : (k.encodeInstr x).opnd = x := by
  cases k <;> rfl

/-- The `op` of an encode operation selects the encoder and the operation's kind (R48). -/
theorem CoefKind.op_encodeInstr (k : CoefKind) (x : Real64) :
    (k.encodeInstr x).op.getLsbD 2 = false ∧ CoefKind.ofBits ((k.encodeInstr x).op.extractLsb' 0 2) = k := by
  cases k <;> simp [CoefKind.encodeInstr, Instr.op, CoefKind.ofBits]

theorem Code.opnd_decodeInstr (c : Code) : c.decodeInstr.opnd = c.pack.setWidth 64 := by
  cases c <;> rfl

/-- The `op` of a decode operation selects the decoder and the kind of its form (R48). -/
theorem Code.op_decodeInstr (c : Code) :
    c.decodeInstr.op.getLsbD 2 = true ∧ CoefKind.ofBits (c.decodeInstr.op.extractLsb' 0 2) = c.kind := by
  cases c <;> simp [Code.decodeInstr, Instr.op, CoefKind.ofBits, Code.kind]

theorem decode_encode_encodeInstr (k : CoefKind) (x : Real64) :
    decode (encode (k.encodeInstr x)) = k.encodeInstr x := by
  obtain ⟨hunit, hkind⟩ := k.op_encodeInstr x
  rw [encode, decode_append, if_neg (Bool.eq_false_iff.mp hunit), hkind, k.opnd_encodeInstr]

theorem decode_encode_decodeInstr (c : Code) : decode (encode c.decodeInstr) = c.decodeInstr := by
  obtain ⟨hunit, hkind⟩ := c.op_decodeInstr
  rw [encode, decode_append, if_pos hunit, hkind, c.opnd_decodeInstr, zext_code, c.unpack_pack]

/-- The decoder inverts the encoder on every operation. -/
theorem decode_encode (i : Instr) : decode (encode i) = i := by
  obtain ⟨k, x, rfl⟩ | ⟨c, rfl⟩ := i.eq_encodeInstr_or_decodeInstr
  · exact decode_encode_encodeInstr k x
  · exact decode_encode_decodeInstr c

end Sys2Proof

namespace Sys2Proof.Machine

/-! The type of a response (R26, R54). -/

theorem hasType_real_iff (r : Response) : r.hasType .real = true ↔ ∃ y, r = .decoded y := by
  cases r <;> simp [Response.hasType]

theorem hasType_code_iff (r : Response) (k : CoefKind) :
    r.hasType (.code k) = true ↔ r = .invalidInput ∨ ∃ c, r = .encoded c ∧ c.kind = k := by
  cases r <;> simp [Response.hasType]

theorem hasType_ofEncode_map {α : Type} {f : α → Code} {k : CoefKind} (hf : ∀ c, (f c).kind = k) (o : OpOutcome α) :
    (Response.ofEncode (o.map f)).hasType (.code k) = true := by
  cases o with
  | ok c => exact (hasType_code_iff _ k).mpr (.inr ⟨f c, rfl, hf c⟩)
  | invalidInput => rfl

theorem hasType_response_encodeInstr (k : CoefKind) (x : Real64) :
    (response (k.encodeInstr x)).hasType (.code k) = true := by
  cases k with
  | alpha => exact hasType_ofEncode_map (f := .alpha) (fun _ => rfl) _
  | beta => exact hasType_ofEncode_map (f := .beta) (fun _ => rfl) _
  | gamma => exact hasType_ofEncode_map (f := .gamma) (fun _ => rfl) _
  | delta => exact hasType_ofEncode_map (f := .delta) (fun _ => rfl) _

theorem hasType_response_decodeInstr (c : Code) : (response c.decodeInstr).hasType .real = true := by
  cases c <;> rfl

/-- Settles O10: `exec_eq` is the frame, and the response's type is that of the operation. -/
theorem everyOperationOnlyAddsItsResponse : Obligations.EveryOperationOnlyAddsItsResponse := by
  intro i
  refine ⟨response i, ?_, ?_, exec_eq i⟩
  · rintro k x rfl; exact hasType_response_encodeInstr k x
  · rintro c rfl; exact hasType_response_decodeInstr c

/-! Steps and runs of requests (R41, R47). -/

theorem nextLine_eq {s : State} {a : HostAction} {rest : List HostAction} (h : s.pending = a :: rest) :
    s.nextLine = { s with pending := rest } := by
  rw [State.nextLine, h, List.tail_cons]

theorem step_request_eq_exec {s : State} {req : Request} {rest : List HostAction}
    (h : s.pending = .request req :: rest) : step s = exec (decode req) { s with pending := rest } := by
  rw [step_request h, exec_eq, nextLine_eq h]

/-- The word of an operation, passed as a number, is placed as the request that encodes it. -/
theorem withFetchWord_pending (s : State) (i : Instr) (nbits : Nat) :
    (s.withFetchWord nbits (encode i).toNat).pending = .request (encode i) :: s.pending.tail := by
  rw [State.withFetchWord, BitVec.ofNat_toNat, BitVec.setWidth_eq]

/-- Settles O6: a request line runs what its word decodes to, which for a placed word is the operation it was encoded from. -/
theorem stepRunsTheDecodedRequest : Obligations.StepRunsTheDecodedRequest := by
  refine ⟨fun s req rest h => step_request_eq_exec h, fun s i nbits _ => ?_⟩
  rw [step_request_eq_exec (withFetchWord_pending s i nbits), decode_encode]
  rfl

theorem run_two_requests {s : State} {p q : Request} {rest : List HostAction}
    (h : s.pending = .request p :: .request q :: rest) :
    core.run 2 s = .next { s with
      pending := rest, outcomes := s.outcomes ++ [response (decode p), response (decode q)] } := by
  have hq : (s.nextLine.deliver (response (decode p))).pending = .request q :: rest := by simp [h]
  rw [run_succ_next 1 (step_request h), run_succ_next 0 (step_request hq), run_zero, nextLine_eq hq, nextLine_eq h]
  simp [State.deliver]

/-- Settles O11: the response to a request is a function of its word, so each keeps its own in either order. -/
theorem requestOrderIsImmaterial : Obligations.RequestOrderIsImmaterial :=
  fun q₁ q₂ => ⟨response (decode q₁), response (decode q₂), fun _ _ => ⟨run_two_requests, run_two_requests⟩⟩

/-! Reset (R29, R115). -/

theorem inv_reset : State.reset.inv = true := by
  obtain ⟨hreceived, happlied⟩ := wf_reset
  rw [State.inv, hreceived, happlied]
  rfl

/-- Settles O42: both parts are read off the definition of the reset state. -/
theorem resetHoldsNothing : Obligations.ResetHoldsNothing := ⟨rfl, inv_reset⟩

/-! Host variables and the results they stand for (R57). -/

/-- The host's variables have the types `known`, one by one. -/
def Typed (rs : List Response) (known : List ResultType) : Prop :=
  List.Forall₂ (fun r ty => r.hasType ty = true) rs known

theorem wellTyped_iff (known : List ResultType) (s : State) :
    s.wellTyped known = true ↔ Typed s.outcomes known ∧ programWf known s.pending = true := by
  simp [State.wellTyped, Typed, List.forall₂_iff_zip, List.all_eq_true]

theorem Typed.append_singleton {rs : List Response} {known : List ResultType} (h : Typed rs known) {r : Response}
    {ty : ResultType} (hr : r.hasType ty = true) : Typed (rs ++ [r]) (known ++ [ty]) :=
  List.rel_append h (.cons hr .nil)

/-- A name of a known type stands for a result of that type. -/
theorem Typed.exists_of_known {rs : List Response} {known : List ResultType} (h : Typed rs known) {n : Nat}
    {ty : ResultType} (hn : known[n]? = some ty) : ∃ r, rs[n]? = some r ∧ r.hasType ty = true := by
  induction h generalizing n with
  | nil => simp at hn
  | @cons r ty' rs known hr _ ih =>
    cases n with
    | zero => cases hn; exact ⟨r, rfl, hr⟩
    | succ n => exact ih hn

theorem Typed.exists_namedReal {s : State} {known : List ResultType} (h : Typed s.outcomes known) {n : Nat}
    (hn : known[n]? = some .real) : ∃ y, s.namedReal n = .ok y := by
  obtain ⟨r, hr, hty⟩ := h.exists_of_known hn
  obtain ⟨y, rfl⟩ := (hasType_real_iff r).mp hty
  exact ⟨y, by rw [State.namedReal, hr]⟩

theorem Typed.namedCode_cases {s : State} {known : List ResultType} (h : Typed s.outcomes known) {k : CoefKind} {n : Nat}
    (hn : known[n]? = some (.code k)) :
    (s.outcomes[n]? = some .invalidInput ∧ s.namedCode k n = .error .nothingToPass) ∨
      ∃ c, s.namedCode k n = .ok c := by
  obtain ⟨r, hr, hty⟩ := h.exists_of_known hn
  obtain rfl | ⟨c, rfl, hc⟩ := (hasType_code_iff r k).mp hty
  · exact .inl ⟨hr, by rw [State.namedCode, hr]⟩
  · exact .inr ⟨c, by simp only [State.namedCode, hr, if_pos hc]⟩

/-! Steps of a well-typed host (R57). -/

section Line

variable {s : State} {k : CoefKind} {n : Nat} {rest : List HostAction}

theorem step_idle (h : s.pending = []) : step s = .next s := by
  rw [step, h]

theorem step_encodeResult (h : s.pending = .encodeResult k n :: rest) {y : Real64} (hy : s.namedReal n = .ok y) :
    step s = .next (s.nextLine.deliver (response (k.encodeInstr y))) := by
  simp only [step, h, hy, exec_eq]

theorem step_decodeResult (h : s.pending = .decodeResult k n :: rest) {c : Code} (hc : s.namedCode k n = .ok c) :
    step s = .next (s.nextLine.deliver (response c.decodeInstr)) := by
  simp only [step, h, hc, exec_eq]

theorem step_decodeResult_of_error (h : s.pending = .decodeResult k n :: rest) {f : Fault}
    (hf : s.namedCode k n = .error f) : step s = .fault f := by
  simp only [step, h, hf]

end Line

/-- A request line announces the type of the response it gets (R48, R54). -/
theorem exists_request_result_hasType (req : Request) :
    ∃ ty, (HostAction.request req).result = some ty ∧ (response (decode req)).hasType ty = true := by
  refine ⟨_, rfl, ?_⟩
  rw [decode]
  split
  · exact hasType_response_decodeInstr _
  · exact hasType_response_encodeInstr _ _

/-- How a step of a well-typed host can end: with `nothingToPass` at a `DEC` line naming an `InvalidInput` outcome, or in a
well-typed state. -/
def StopsOrStaysTyped (s : State) : Prop :=
  (step s = .fault .nothingToPass ∧
    ∃ k n rest, s.pending = .decodeResult k n :: rest ∧ s.outcomes[n]? = some .invalidInput) ∨
  ∃ t, step s = .next t ∧ ∃ known, t.wellTyped known = true

section Stays

variable {known : List ResultType} {s : State} {a : HostAction} {rest : List HostAction}

/-- Delivering the result that a line announces keeps the host well-typed. -/
theorem StopsOrStaysTyped.of_deliver (ht : Typed s.outcomes known) (hp : s.pending = a :: rest)
    (hwf : programWf (known ++ a.result.toList) rest = true) {r : Response} {ty : ResultType} (ha : a.result = some ty)
    (hr : r.hasType ty = true) (hs : step s = .next (s.nextLine.deliver r)) : StopsOrStaysTyped s := by
  rw [ha] at hwf
  refine .inr ⟨_, hs, known ++ [ty], (wellTyped_iff _ _).mpr ⟨ht.append_singleton hr, ?_⟩⟩
  simpa [hp] using hwf

/-- A line that announces no result and leaves the host's variables as they are keeps the host well-typed. -/
theorem StopsOrStaysTyped.of_frame (ht : Typed s.outcomes known) (hp : s.pending = a :: rest)
    (hwf : programWf (known ++ a.result.toList) rest = true) (ha : a.result = none) {t : State} (hs : step s = .next t)
    (htp : t.pending = s.nextLine.pending) (hto : t.outcomes = s.outcomes) : StopsOrStaysTyped s := by
  refine .inr ⟨t, hs, known, (wellTyped_iff _ _).mpr ⟨hto ▸ ht, ?_⟩⟩
  simpa [htp, hp, ha] using hwf

end Stays

theorem stopsOrStaysTyped_of_wellTyped {known : List ResultType} {s : State} (h : s.wellTyped known = true) :
    StopsOrStaysTyped s := by
  obtain ⟨ht, hwf⟩ := (wellTyped_iff known s).mp h
  cases hp : s.pending with
  | nil => exact .inr ⟨s, step_idle hp, known, h⟩
  | cons a rest =>
    rw [hp, programWf, Bool.and_eq_true] at hwf
    obtain ⟨hnames, hwf⟩ := hwf
    cases a with
    | request req =>
      obtain ⟨ty, hres, hty⟩ := exists_request_result_hasType req
      exact .of_deliver ht hp hwf hres hty (step_request hp)
    | encodeResult k n =>
      obtain ⟨y, hy⟩ := ht.exists_namedReal (n := n) (beq_iff_eq.mp hnames)
      exact .of_deliver ht hp hwf rfl (hasType_response_encodeInstr k y) (step_encodeResult hp hy)
    | decodeResult k n =>
      obtain ⟨hinv, hf⟩ | ⟨c, hc⟩ := ht.namedCode_cases (n := n) (beq_iff_eq.mp hnames)
      · exact .inl ⟨step_decodeResult_of_error hp hf, k, n, rest, hp, hinv⟩
      · exact .of_deliver ht hp hwf rfl (hasType_response_decodeInstr c) (step_decodeResult hp hc)
    | writeByte a b => exact .of_frame ht hp hwf rfl (step_writeByte hp) rfl rfl
    | readByte a => exact .of_frame ht hp hwf rfl (step_readByte hp) rfl rfl
    | ioUpdate => exact .of_frame ht hp hwf rfl (step_ioUpdate hp) rfl rfl

/-- Settles O44: line by line, a well-typed host stops at an `InvalidInput` outcome or stays well-typed. -/
theorem wellFormedProgramStopsOnlyOnInvalidInput : Obligations.WellFormedProgramStopsOnlyOnInvalidInput := by
  intro known s h
  obtain ⟨hs, hline⟩ | ⟨t, hs, ht⟩ := stopsOrStaysTyped_of_wellTyped h
  · rw [hs]
    exact ⟨fun f hf => by cases hf; exact ⟨rfl, hline⟩, nofun, nofun⟩
  · rw [hs]
    exact ⟨nofun, nofun, fun u hu => by cases hu; exact ht⟩

end Sys2Proof.Machine
end

section
/-! Soundness of every response the block can give (R75, R90): what an encode operation returns is canonical, what a decode
operation returns is +0.0 or a positive normal pattern. With the laws of transport memory this makes `State.inv` an invariant. -/

namespace Sys2Proof

/-! The canonical forms (R75) in the integers of their fields. -/

theorem AlphaCode.canonical_iff (c : AlphaCode) : c.canonical = true ↔
    (c.a0.toNat = 65535 ∧ c.a2.toNat = 0 ∧ c.a3.toNat = 0) ∨
    (c.a1.toNat = 63 ∧ c.a2.toNat = 0 ∧ c.a3.toNat = 0 ∧ c.a0.toNat ≠ 0) ∨
    (c.a1.toNat = 0 ∧ 32768 ≤ c.a0.toNat ∧ c.a2.toNat ≠ 0 ∧ (c.a3.toNat = 0 ∨ c.a2.toNat = 7)) := by
  simp [AlphaCode.canonical, ← BitVec.toNat_inj, or_assoc, and_assoc]

theorem BetaCode.canonical_iff (c : BetaCode) :
    c.canonical = true ↔ c.b0.toNat = 131071 ∨ (c.b1.toNat = 31 ∧ c.b0.toNat ≠ 0) := by
  simp [BetaCode.canonical, ← BitVec.toNat_inj]

theorem DeltaCode.canonical_iff (c : DeltaCode) :
    c.canonical = true ↔ c.d0.toNat = 32767 ∨ (c.d1.toNat = 31 ∧ c.d0.toNat ≠ 0) := by
  simp [DeltaCode.canonical, ← BitVec.toNat_inj]

end Sys2Proof

namespace Sys2Proof.Machine

/-! Exponents: either at their end of the range or large enough for the mantissa to be normalised (R66, R67, R69). -/

theorem clamp_eq_upper_or_le {v lo hi : Int} (h : lo ≤ hi) : clamp v lo hi = hi ∨ v ≤ clamp v lo hi := by
  rw [clamp_eq_min_max h]; omega

theorem clamp_le_of_lower_le {v lo hi : Int} (h : lo ≤ hi) (hv : lo ≤ v) : clamp v lo hi ≤ v := by
  rw [clamp_eq_min_max h]; omega

theorem downExp_eq_or_nclog2_le (q : Dyad) : downExp q = 31 ∨ nclog2 q ≤ downExp q :=
  clamp_eq_upper_or_le (by norm_num)

theorem alphaDown_of_one_le {q : Dyad} (hq : 1 ≤ q.toRat) : alphaDown q = 0 :=
  if_neg fun hb => absurd ((belowOne_iff q).mp hb) hq.not_gt

theorem alphaDown_eq_or_nclog2_le {q : Dyad} (h : 0 < q.sig) : alphaDown q = 63 ∨ nclog2 q ≤ alphaDown q := by
  by_cases hb : belowOne q = true
  · rw [alphaDown, if_pos hb]; exact clamp_eq_upper_or_le (by norm_num)
  · have hq : 1 ≤ q.toRat := not_lt.mp fun hlt => hb ((belowOne_iff q).mpr hlt)
    exact .inr ((nclog2_nonpos h hq).trans_eq (alphaDown_of_one_le hq).symm)

theorem alphaUp_of_le_one {q : Dyad} (hq : q.toRat ≤ 1) : alphaUp q = 0 :=
  if_neg fun ha => absurd ((aboveOne_iff q).mp ha) hq.not_gt

theorem alphaUp_of_one_lt {q : Dyad} (h : 0 < q.sig) (hq : 1 < q.toRat) : 1 ≤ alphaUp q ∧ alphaUp q ≤ clog2 q := by
  have hclog : 1 ≤ clog2 q := (clog2_spec h).ge (by simpa using hq)
  rw [alphaUp, if_pos ((aboveOne_iff q).mpr hq)]
  exact ⟨by rw [clamp_eq_min_max (by norm_num)]; omega, clamp_le_of_lower_le (by norm_num) (by omega)⟩

/-! Mantissas (R72 to R74). -/

section Saturation

variable (tie : Tie) {q : Dyad} (h : 0 < q.sig) {b : Int} {top : Nat} {hi : Int} (htop : (top : ℚ) = 2 ^ b)
  (hhi : hi = top - 1) (h₁ : 1 ≤ hi)

include h htop hhi h₁

/-- Scaled by at least its own logarithm ceiling, a value reaches past every mantissa below `2^b`. -/
theorem mantissa_saturates_of_nclog2_le {k : Int} (hk : nclog2 q ≤ k) :
    clamp (rnd tie (scale q (b + k))) 1 hi = hi := by
  refine mantissa_saturates hhi h₁ ?_
  calc (top : ℚ) = 2 ^ b := htop
    _ ≤ q.toRat * 2 ^ (b + nclog2 q) := ((nclog2_spec h).scaled b).1
    _ ≤ q.toRat * 2 ^ (b + k) := mul_le_mul_of_nonneg_left (two_zpow_le.mpr (by omega)) (toRat_nonneg q)

/-- The mantissa of beta, gamma and delta is saturated, or the exponent is at its end and the mantissa is not 0. -/
theorem mantissa_downExp_cases :
    clamp (rnd tie (scale q (b + downExp q))) 1 hi = hi ∨
      (downExp q = 31 ∧ clamp (rnd tie (scale q (b + downExp q))) 1 hi ≠ 0) := by
  obtain hd | hd := downExp_eq_or_nclog2_le q
  · have hm := (mantissa_bounds (rnd tie (scale q (b + downExp q))) h₁).1
    exact .inr ⟨hd, by omega⟩
  · exact .inl (mantissa_saturates_of_nclog2_le tie h htop hhi h₁ hd)

end Saturation

/-- Scaled down by no more than its logarithm ceiling, a value keeps the leading bit of a mantissa of 16 bits (R72, case B). -/
theorem rnd_ge_of_le_clog2 (tie : Tie) {q : Dyad} (h : 0 < q.sig) {k : Int} (hk : k ≤ clog2 q) :
    32768 ≤ rnd tie (scale q (16 - k)) := by
  refine (rnd_scale tie q (16 - k)).ge_of_ge ?_
  calc ((32768 : Nat) : ℚ) = 2 ^ ((16 : Int) - 1) := by norm_num
    _ ≤ q.toRat * 2 ^ (16 - clog2 q) := ((clog2_spec h).scaled 16).1.le
    _ ≤ q.toRat * 2 ^ (16 - k) := mul_le_mul_of_nonneg_left (two_zpow_le.mpr (by omega)) (toRat_nonneg q)

theorem splitUp_canonical {y : Int} (h : 1 ≤ y) : (splitUp y).1 ≠ 0 ∧ ((splitUp y).2 = 0 ∨ (splitUp y).1 = 7) := by
  rw [splitUp_eq]
  split
  · exact ⟨by norm_num, .inr rfl⟩
  · exact ⟨by simp only; omega, .inl rfl⟩

/-! What an encode operation returns is canonical (R75). -/

theorem alphaFields_canonical (tie : Tie) {q : Dyad} (h : 0 < q.sig) : (alphaFields tie q).canonical = true := by
  obtain ⟨h0, h1, h2, h3⟩ := alphaFields_spec tie q
  rw [AlphaCode.canonical_iff]
  rcases le_or_gt q.toRat 1 with hq | hq
  · have hsplit : splitUp 0 = (0, 0) := rfl
    simp only [alphaUp_of_le_one hq, hsplit, sub_zero] at h0 h2 h3
    obtain hd | hd := alphaDown_eq_or_nclog2_le h
    · have hm := mantissa_bounds (rnd tie (scale q (16 + alphaDown q))) (hi := 65535) (by norm_num)
      exact .inr (.inl (by omega))
    · have hm := mantissa_saturates_of_nclog2_le tie h (b := 16) (top := 65536) (hi := 65535)
        (by norm_num) (by norm_num) (by norm_num) hd
      exact .inl (by omega)
  · obtain ⟨hpos, hle⟩ := alphaUp_of_one_lt h hq
    have hsplit := splitUp_canonical hpos
    rw [alphaDown_of_one_le hq.le] at h0 h1
    rw [add_zero, clamp_eq_min_max (by norm_num)] at h0
    have hm := rnd_ge_of_le_clog2 tie h hle
    exact .inr (.inr (by omega))

theorem betaFields_canonical (tie : Tie) {q : Dyad} (h : 0 < q.sig) : (betaFields tie q).canonical = true := by
  obtain ⟨h0, h1⟩ := betaFields_spec tie q
  have hm := mantissa_downExp_cases tie h (b := 17) (top := 131072) (hi := 131071)
    (by norm_num) (by norm_num) (by norm_num)
  rw [BetaCode.canonical_iff]
  omega

theorem gammaFields_canonical (tie : Tie) {q : Dyad} (h : 0 < q.sig) : (gammaFields tie q).canonical = true :=
  betaFields_canonical tie h

theorem deltaFields_canonical (tie : Tie) {q : Dyad} (h : 0 < q.sig) : (deltaFields tie q).canonical = true := by
  obtain ⟨h0, h1⟩ := deltaFields_spec tie q
  have hm := mantissa_downExp_cases tie h (b := 15) (top := 32768) (hi := 32767)
    (by norm_num) (by norm_num) (by norm_num)
  rw [DeltaCode.canonical_iff]
  omega

/-- An encode operation whose fields are canonical for every positive magnitude gives a sound response to every operand. -/
theorem sound_ofEncode_front {α : Type} {fields : Dyad → α} {form : α → Code}
    (hcanonical : ∀ q, 0 < q.sig → (form (fields q)).canonical = true) (k : CoefKind) (x : Real64) :
    (Response.ofEncode (((front k x).map fields).map form)).sound = true := by
  cases hf : front k x with
  | ok q =>
    obtain ⟨-, -, -, hpos⟩ := front_ok hf
    exact hcanonical q hpos
  | invalidInput => rfl

/-! What a decode operation returns (R90). -/

/-- A mantissa field `v` scaled by an exponent that the decode formulas can reach (R86 to R89) is written soundly. -/
theorem sound_decoded_enc64 {w : Nat} (v : BitVec w) {n : Int} (hw : w ≤ 53) (hlow : -79 ≤ n) (hhigh : n + w ≤ 22) :
    (Response.decoded (enc64 v.toNat n)).sound = true := by
  by_cases hv : v.toNat = 0
  · rw [hv, enc64_zero]; rfl
  · have hlog : v.toNat.log2 < w := (Nat.log2_lt hv).mpr v.isLt
    obtain ⟨hclass, hsign, hexp, -⟩ := enc64_spec (n := n) hv (v.isLt.trans_le (Nat.pow_le_pow_right (by norm_num) hw))
      (by omega) (by omega)
    have hrange : 944 ≤ exp64 (enc64 v.toNat n) ∧ exp64 (enc64 v.toNat n) ≤ 1044 := by omega
    simp [Response.sound, hclass, hsign, hrange]

theorem sound_decodeAlpha (c : AlphaCode) : (Response.decoded (decodeAlpha c)).sound = true := by
  have h1 := c.a1.isLt
  have h2 := c.a2.isLt
  have h3 := c.a3.isLt
  exact sound_decoded_enc64 c.a0 (by norm_num) (by simp only [params]; omega) (by simp only [params]; omega)

theorem sound_decodeBeta (c : BetaCode) : (Response.decoded (decodeBeta c)).sound = true := by
  have h1 := c.b1.isLt
  exact sound_decoded_enc64 c.b0 (by norm_num) (by simp only [params]; omega) (by simp only [params]; omega)

theorem sound_decodeDelta (c : DeltaCode) : (Response.decoded (decodeDelta c)).sound = true := by
  have h1 := c.d1.isLt
  exact sound_decoded_enc64 c.d0 (by norm_num) (by simp only [params]; omega) (by simp only [params]; omega)

/-- Every response of the block is sound, whatever the operation and its operand. -/
theorem response_sound (i : Instr) : (response i).sound = true := by
  cases i with
  | encAlpha x => exact sound_ofEncode_front (form := .alpha) (fun _ h => alphaFields_canonical _ h) _ x
  | encBeta x => exact sound_ofEncode_front (form := .beta) (fun _ h => betaFields_canonical _ h) _ x
  | encGamma x => exact sound_ofEncode_front (form := .gamma) (fun _ h => gammaFields_canonical _ h) _ x
  | encDelta x => exact sound_ofEncode_front (form := .delta) (fun _ h => deltaFields_canonical _ h) _ x
  | decAlpha c => exact sound_decodeAlpha c
  | decBeta c => exact sound_decodeBeta c
  | decGamma c => exact sound_decodeBeta ⟨c.g0, c.g1⟩
  | decDelta c => exact sound_decodeDelta c

/-! The invariant. -/

theorem inv_iff (s : State) : s.inv = true ↔
    Memory.wf s.transport.received = true ∧ Memory.wf s.transport.applied = true ∧
      ∀ r ∈ s.outcomes, r.sound = true := by
  simp [State.inv, and_assoc]

/-- Settles O43: a request adds a sound response, and the transport's calls keep its memories canonical. -/
theorem stepKeepsTheInvariant : Obligations.StepKeepsTheInvariant := by
  intro s t hs h
  rw [inv_iff] at hs ⊢
  obtain ⟨hreceived, happlied, hsound⟩ := hs
  obtain ⟨-, rfl⟩ | ⟨i, -, -, -, -, rfl⟩ | ⟨a, b, -, -, rfl⟩ | ⟨a, -, -, rfl⟩ | ⟨-, -, rfl⟩ := step_next h
  · exact ⟨hreceived, happlied, hsound⟩
  · refine ⟨hreceived, happlied, fun r hr => ?_⟩
    obtain hr | rfl : r ∈ s.outcomes ∨ r = response i := by simpa using hr
    · exact hsound r hr
    · exact response_sound i
  · exact ⟨wf_writeByte (s := s.nextLine) a b hreceived, happlied, hsound⟩
  · exact ⟨hreceived, happlied, hsound⟩
  · exact ⟨rfl, wf_ioUpdate (s := s.nextLine) hreceived happlied, hsound⟩

end Sys2Proof.Machine
end

section
/-! The register transport (R31, R32): which line changes what of it, what a read returns, how a batch of writes takes effect at the
commit, and what a host that keeps the duties of R117 and R119 never leaves behind. -/

namespace Sys2Proof.Machine

/-! Frames of a step (R30, R32). -/

/-- Settles O45: the cases of `step_next`, each of which leaves all but its own part as it was. -/
theorem onlyTransportCallsChangeTheTransport : Obligations.OnlyTransportCallsChangeTheTransport := by
  intro s t h
  obtain ⟨-, rfl⟩ | ⟨i, -, -, -, -, rfl⟩ | ⟨a, b, rest, hp, rfl⟩ | ⟨a, rest, hp, rfl⟩ | ⟨rest, hp, rfl⟩ :=
    step_next h
  · exact ⟨absurd rfl, absurd rfl, absurd rfl⟩
  · exact ⟨absurd rfl, absurd rfl, absurd rfl⟩
  · exact ⟨absurd rfl, fun _ => .inl ⟨a, b, rest, hp⟩, absurd rfl⟩
  · exact ⟨absurd rfl, absurd rfl, fun _ => ⟨a, rest, hp⟩⟩
  · exact ⟨fun _ => ⟨rest, hp⟩, fun _ => .inr ⟨rest, hp⟩, absurd rfl⟩

/-- A step takes one line off the host's program, and none off an empty one. -/
theorem step_pending {s t : State} (h : step s = .next t) : t.pending = s.pending.tail := by
  obtain ⟨hp, rfl⟩ | ⟨i, -, -, -, -, rfl⟩ | ⟨a, b, -, -, rfl⟩ | ⟨a, -, -, rfl⟩ | ⟨-, -, rfl⟩ := step_next h
  · rw [hp, List.tail_nil]
  · rfl
  · rfl
  · rfl
  · rfl

theorem run_pending {k : Nat} {s t : State} (h : core.run k s = .next t) : t.pending = s.pending.drop k := by
  induction k generalizing s with
  | zero => cases h; rfl
  | succ k ih =>
    obtain ⟨u, hu, hk⟩ := run_succ_inv h
    rw [ih hk, step_pending hu, List.drop_tail]

/-- A run that comes to a next state goes on from there. -/
theorem run_add {m : Nat} {s t : State} (n : Nat) (h : core.run m s = .next t) :
    core.run (m + n) s = core.run n t := by
  induction m generalizing s with
  | zero => cases h; rw [Nat.zero_add]
  | succ m ih =>
    obtain ⟨u, hu, hm⟩ := run_succ_inv h
    rw [Nat.succ_add, run_succ_next _ hu, ih hm]

/-! Reading (R31, U6). -/

theorem readValue_of_received {s : State} {a : Addr} {w v : Byte} (hw : Memory.read s.transport.received a.toNat = some w)
    (hv : Memory.read s.transport.applied a.toNat = some v) : s.readValue a = w ∨ s.readValue a = v := by
  have happlied : s.appliedByte a = v := by rw [State.appliedByte, hv, Option.getD_some]
  simp only [State.readValue, hw, happlied]
  exact ite_eq_or_eq _ w v

theorem readValue_of_applied {s : State} {a : Addr} {v : Byte} (hr : Memory.read s.transport.received a.toNat = none)
    (hv : Memory.read s.transport.applied a.toNat = some v) : s.readValue a = v := by
  simp only [State.readValue, hr, State.appliedByte, hv, Option.getD_some]

/-- Settles O47: the byte is `readValue` of the state in which the line is carried out. -/
theorem readByteReturnsOneOfTheTwo : Obligations.ReadByteReturnsOneOfTheTwo := by
  intro s a rest hp
  refine ⟨s.nextLine.readValue a, ?_, fun w v => readValue_of_received (s := s.nextLine),
    fun v => readValue_of_applied (s := s.nextLine)⟩
  rw [step_readByte hp, State.readByte, nextLine_eq hp]

/-! A batch of writes (R32, R37). -/

/-- A memory after the bytes of a batch are written to it one by one. -/
def Memory.writeAll (m : Memory) (ws : List (Addr × Byte)) : Memory :=
  ws.foldl (fun m w => m.write w.1.toNat w.2) m

theorem Memory.writeAll_cons (m : Memory) (w : Addr × Byte) (ws : List (Addr × Byte)) :
    m.writeAll (w :: ws) = Memory.writeAll (m.write w.1.toNat w.2) ws := rfl

theorem Memory.pairwise_writeAll {m : Memory} (ws : List (Addr × Byte)) (h : m.Pairwise (fun p q => p.1 < q.1)) :
    (m.writeAll ws).Pairwise (fun p q => p.1 < q.1) := by
  induction ws generalizing m with
  | nil => exact h
  | cons w ws ih => exact ih (Memory.pairwise_write w.1.toNat w.2 h)

/-- Reading at an address after a write at another or the same. -/
theorem Memory.read_write_addr {m : Memory} (a : Addr) (b : Byte) (c : Addr) (h : m.Pairwise (fun p q => p.1 < q.1)) :
    Memory.read (m.write a.toNat b) c.toNat = if a = c then some b else Memory.read m c.toNat := by
  rw [Memory.read_write _ _ _ _ h]
  simp only [BitVec.toNat_inj, eq_comm]

/-- After a batch of writes an address reads as the last byte written to it, or as before. -/
theorem Memory.read_writeAll {m : Memory} (ws : List (Addr × Byte)) (a : Addr) (h : m.Pairwise (fun p q => p.1 < q.1)) :
    Memory.read (m.writeAll ws) a.toNat =
      ((ws.reverse.find? (fun w => w.1 == a)).map Prod.snd).or (Memory.read m a.toNat) := by
  induction ws generalizing m with
  | nil => rfl
  | cons w ws ih =>
    rw [Memory.writeAll_cons, ih (Memory.pairwise_write _ _ h), Memory.read_write_addr _ _ _ h, List.reverse_cons,
      List.find?_append, Option.map_or, Option.or_assoc]
    by_cases hw : w.1 = a <;> simp [hw]

/-- The run of a batch of writes: the bytes are received, in order, and nothing else of the state changes. -/
theorem run_writes (ws : List (Addr × Byte)) {s : State} {rest : List HostAction}
    (h : s.pending = ws.map (fun w => .writeByte w.1 w.2) ++ rest) :
    core.run ws.length s = .next { s with
      pending := rest, transport := { s.transport with received := s.transport.received.writeAll ws } } := by
  induction ws generalizing s with
  | nil => rw [List.map_nil, List.nil_append] at h; rw [← h]; rfl
  | cons w ws ih =>
    have hp : (s.nextLine.writeByte w.1 w.2).pending = ws.map (fun w => .writeByte w.1 w.2) ++ rest := by simp [h]
    rw [List.length_cons, run_succ_next _ (step_writeByte h), ih hp]
    rfl

/-- Settles O46: the run of the writes only receives, and the commit lays what is received over what is applied. -/
theorem writesTakeEffectTogetherAtTheCommit : Obligations.WritesTakeEffectTogetherAtTheCommit := by
  intro s ws rest hp hreceived happlied
  refine ⟨fun k hk => ?_, ?_⟩
  · have hsplit : s.pending = (ws.take k).map (fun w => .writeByte w.1 w.2) ++
        ((ws.drop k).map (fun w => .writeByte w.1 w.2) ++ .ioUpdate :: rest) := by
      rw [hp, ← List.append_assoc, ← List.map_append, List.take_append_drop]
    have hrun := run_writes (ws.take k) hsplit
    rw [List.length_take_of_le hk] at hrun
    exact ⟨_, hrun, rfl, rfl⟩
  · obtain ⟨hreceived, -⟩ := (Memory.wf_iff _).mp hreceived
    obtain ⟨happlied, -⟩ := (Memory.wf_iff _).mp happlied
    refine ⟨_, (run_add 1 (run_writes ws hp)).trans (run_succ_next 0 (step_ioUpdate rfl)), rfl, rfl, fun a => ?_⟩
    rw [ioUpdate_applied, ← Memory.read_writeAll ws a hreceived]
    exact Memory.read_overlay a.toNat happlied (Memory.pairwise_writeAll ws hreceived)

/-! A host that commits after every write (R117). -/

/-- Whatever is received is followed by a commit in a program that keeps the duty of R117. -/
def CommitAhead (s : State) : Prop :=
  everyWriteCommitted s.pending = true ∧ (s.transport.received = [] ∨ .ioUpdate ∈ s.pending)

theorem everyWriteCommitted_tail {program : List HostAction} (h : everyWriteCommitted program = true) :
    everyWriteCommitted program.tail = true := by
  cases program with
  | nil => rfl
  | cons a rest =>
    cases a with
    | writeByte a b => exact ((Bool.and_eq_true _ _).mp h).2
    | request _ => exact h
    | encodeResult _ _ => exact h
    | decodeResult _ _ => exact h
    | readByte _ => exact h
    | ioUpdate => exact h

theorem ioUpdate_mem_of_everyWriteCommitted {a : Addr} {b : Byte} {rest : List HostAction}
    (h : everyWriteCommitted (.writeByte a b :: rest) = true) : .ioUpdate ∈ rest := by
  simp only [everyWriteCommitted, Bool.and_eq_true, List.contains_iff_mem] at h
  exact h.1

/-- A line that is no commit does not use up the commit ahead. -/
theorem CommitAhead.received_or_mem_tail {s : State} (h : CommitAhead s) {a : HostAction} {rest : List HostAction}
    (hp : s.pending = a :: rest) (ha : a ≠ .ioUpdate) :
    s.transport.received = [] ∨ .ioUpdate ∈ s.pending.tail :=
  h.2.imp_right fun hmem => by simpa [hp, ha.symm] using hmem

theorem CommitAhead.step {s t : State} (hs : CommitAhead s) (h : step s = .next t) : CommitAhead t := by
  refine ⟨step_pending h ▸ everyWriteCommitted_tail hs.1, ?_⟩
  obtain ⟨-, rfl⟩ | ⟨i, a, rest, hp, ha, rfl⟩ | ⟨a, b, rest, hp, rfl⟩ | ⟨a, rest, hp, rfl⟩ | ⟨rest, hp, rfl⟩ :=
    step_next h
  · exact hs.2
  · exact hs.received_or_mem_tail hp fun hio => by simp [hio, HostAction.result] at ha
  · have hmem := ioUpdate_mem_of_everyWriteCommitted (hp ▸ hs.1)
    exact .inr (by simpa [hp] using hmem)
  · exact hs.received_or_mem_tail hp nofun
  · exact .inl rfl

/-- Settles O48: `CommitAhead` holds at the start and every step keeps it; at the end no commit is ahead. -/
theorem committedProgramLeavesNothingWaiting : Obligations.CommittedProgramLeavesNothingWaiting := by
  intro s t hduty hnone h
  have hend : t.pending = [] := by rw [run_pending h, List.drop_length]
  have hahead : CommitAhead t := run_keeps (fun _ _ => CommitAhead.step) ⟨hduty, .inl hnone⟩ h
  exact ⟨hend, hahead.2.resolve_right (by simp [hend])⟩

/-! A host that commits a coefficient whole (R119). -/

/-- No byte of the coefficient kept at the addresses `batch` is received. -/
def NoneReceived (batch : List Addr) (m : Memory) : Prop := ∀ a ∈ batch, Memory.read m a.toNat = none

/-- Every byte of the coefficient that is not still to be written is received. -/
def RestReceived (batch todo : List Addr) (m : Memory) : Prop :=
  ∀ a ∈ batch, a ∉ todo → (Memory.read m a.toNat).isSome = true

/-- Where a host that keeps the duty of R119 is in its program: before the first byte of the coefficient, or with all but the
bytes `todo` written. -/
def KeepsWhole (batch : List Addr) (s : State) : Prop :=
  s.transport.received.Pairwise (fun p q => p.1 < q.1) ∧
  ∃ todo, commitsWhole batch todo s.pending = true ∧
    ((todo = [] ∧ NoneReceived batch s.transport.received) ∨ RestReceived batch todo s.transport.received)

section Batch

variable {batch todo : List Addr} {m : Memory} (hm : m.Pairwise (fun p q => p.1 < q.1)) {a : Addr} (b : Byte)

include hm

theorem NoneReceived.write_of_notMem (h : NoneReceived batch m) (ha : a ∉ batch) :
    NoneReceived batch (m.write a.toNat b) := fun c hc => by
  have hne : a ≠ c := fun hac => ha (hac ▸ hc)
  rw [Memory.read_write_addr a b c hm, if_neg hne, h c hc]

/-- A write strikes its own address off what is still to be written. -/
theorem RestReceived.write_erase (h : RestReceived batch todo m) :
    RestReceived batch (todo.erase a) (m.write a.toNat b) := fun c hc hn => by
  rw [Memory.read_write_addr a b c hm]
  split
  · rfl
  · next hne => exact h c hc fun hmem => hn ((List.mem_erase_of_ne (Ne.symm hne)).mpr hmem)

theorem RestReceived.write (h : RestReceived batch todo m) : RestReceived batch todo (m.write a.toNat b) :=
  fun c hc hn => h.write_erase hm b c hc fun hmem => hn (List.mem_of_mem_erase hmem)

end Batch

/-- Before its first write everything of a coefficient is still to be written. -/
theorem restReceived_batch (batch : List Addr) (m : Memory) : RestReceived batch batch m :=
  fun _ ha hn => absurd ha hn

/-- A line that adds a result leaves the duty towards the coefficient where it was. -/
theorem commitsWhole_cons_of_result {batch todo : List Addr} {a : HostAction} {rest : List HostAction}
    (ha : a.result.isSome = true) : commitsWhole batch todo (a :: rest) = commitsWhole batch todo rest := by
  cases a with
  | request _ => rfl
  | encodeResult _ _ => rfl
  | decodeResult _ _ => rfl
  | writeByte _ _ => cases ha
  | readByte _ => cases ha
  | ioUpdate => cases ha

theorem commitsWhole_ioUpdate {batch todo : List Addr} {rest : List HostAction}
    (h : commitsWhole batch todo (.ioUpdate :: rest) = true) : todo = [] ∧ commitsWhole batch todo rest = true := by
  simpa only [commitsWhole, Bool.and_eq_true, List.isEmpty_iff] using h

theorem KeepsWhole.writeByte {batch : List Addr} {s : State} (hs : KeepsWhole batch s) {a : Addr} {b : Byte}
    {rest : List HostAction} (hp : s.pending = .writeByte a b :: rest) :
    KeepsWhole batch (s.nextLine.writeByte a b) := by
  obtain ⟨hm, todo, hduty, hstate⟩ := hs
  refine ⟨Memory.pairwise_write _ _ hm, ?_⟩
  rw [hp, commitsWhole] at hduty
  simp only [writeByte_pending, nextLine_pending, hp, List.tail_cons, writeByte_received, nextLine_transport]
  by_cases ha : a ∈ batch
  · rw [if_pos (List.contains_iff_mem.mpr ha)] at hduty
    refine ⟨_, hduty, .inr (RestReceived.write_erase hm b ?_)⟩
    split
    · exact restReceived_batch batch _
    · next hne => exact hstate.resolve_left fun h => hne (by rw [h.1]; rfl)
  · rw [if_neg (mt List.contains_iff_mem.mp ha)] at hduty
    exact ⟨todo, hduty, hstate.imp (fun h => ⟨h.1, h.2.write_of_notMem hm b ha⟩) fun h => h.write hm b⟩

theorem KeepsWhole.step {batch : List Addr} {s t : State} (hs : KeepsWhole batch s) (h : step s = .next t) :
    KeepsWhole batch t := by
  obtain ⟨-, rfl⟩ | ⟨i, a, rest, hp, ha, rfl⟩ | ⟨a, b, rest, hp, rfl⟩ | ⟨a, rest, hp, rfl⟩ | ⟨rest, hp, rfl⟩ :=
    step_next h
  · exact hs
  · obtain ⟨hm, todo, hduty, hstate⟩ := hs
    rw [hp, commitsWhole_cons_of_result ha] at hduty
    exact ⟨hm, todo, by simpa [hp] using hduty, hstate⟩
  · exact hs.writeByte hp
  · obtain ⟨hm, todo, hduty, hstate⟩ := hs
    rw [hp, commitsWhole] at hduty
    exact ⟨hm, todo, by simpa [hp] using hduty, hstate⟩
  · obtain ⟨hm, todo, hduty, -⟩ := hs
    obtain ⟨hdone, hduty⟩ := commitsWhole_ioUpdate (hp ▸ hduty)
    exact ⟨.nil, todo, by simpa [hp] using hduty, .inl ⟨hdone, fun _ _ => rfl⟩⟩

/-- Settles O49: `KeepsWhole` holds at the start and every step keeps it; the duty has nothing left to write at a commit. -/
theorem coefficientCommittedWhole : Obligations.CoefficientCommittedWhole := by
  intro batch s t k rest hduty hwf hnone h hp
  have hstart : KeepsWhole batch s := ⟨((Memory.wf_iff _).mp hwf).1, [], hduty, .inl ⟨rfl, hnone⟩⟩
  obtain ⟨-, todo, hduty, hstate⟩ := run_keeps (fun _ _ => KeepsWhole.step) hstart h
  obtain ⟨rfl, -⟩ := commitsWhole_ioUpdate (hp ▸ hduty)
  exact hstate.imp (fun h => h.2) fun h a ha => h a ha List.not_mem_nil

end Sys2Proof.Machine
end

section
/-! Request words as `op` and `opnd` (R47, R48): which bits of a word its operation reads (R53), and the words of the spec's examples
(R58). -/

namespace Sys2Proof

/-! The bits of a code word that a kind uses (R50 to R53). -/

/-- The mask of the bits of a code word that are fields of a kind's encoded form. -/
def CoefKind.codeMask : CoefKind → CodeWord
  | .alpha => BitVec.allOnes 29
  | .beta => 0x3FFFFF#29
  | .gamma => 0x3FFFFF#29
  | .delta => 0xFFFFF#29

theorem AlphaCode.pack_unpack (w : CodeWord) : (AlphaCode.unpack w).pack = w := by
  simp only [AlphaCode.pack, AlphaCode.unpack, BitVec.extractLsb'_append_extractLsb'_eq_extractLsb', BitVec.extractLsb'_eq_self]

/-- Two adjacent fields at the low end of a word, with zeros above them, are the word with its high bits cleared. -/
theorem zero_append_fields {a b c : Nat} (w : BitVec (a + b + c)) :
    0#a ++ w.extractLsb' c b ++ w.extractLsb' 0 c = w &&& (0#a ++ BitVec.allOnes b ++ BitVec.allOnes c) := by
  have hfields : w.extractLsb' (c + b) a ++ w.extractLsb' c b ++ w.extractLsb' 0 c = w := by
    rw [BitVec.extractLsb'_append_extractLsb'_eq_extractLsb' rfl,
      BitVec.extractLsb'_append_extractLsb'_eq_extractLsb' (Nat.zero_add c).symm, BitVec.extractLsb'_eq_self]
  conv_rhs => rw [← hfields, BitVec.and_append, BitVec.and_append, BitVec.and_zero, BitVec.and_allOnes, BitVec.and_allOnes]

theorem BetaCode.pack_unpack (w : CodeWord) : (BetaCode.unpack w).pack = w &&& CoefKind.beta.codeMask := by
  have hmask : CoefKind.beta.codeMask = 0#7 ++ BitVec.allOnes 5 ++ BitVec.allOnes 17 := by decide
  rw [hmask]
  exact zero_append_fields (a := 7) (b := 5) (c := 17) w

theorem DeltaCode.pack_unpack (w : CodeWord) : (DeltaCode.unpack w).pack = w &&& CoefKind.delta.codeMask := by
  have hmask : CoefKind.delta.codeMask = 0#9 ++ BitVec.allOnes 5 ++ BitVec.allOnes 15 := by decide
  rw [hmask]
  exact zero_append_fields (a := 9) (b := 5) (c := 15) w

/-- Reading a code word and writing it again clears the bits its kind ignores. -/
theorem Code.pack_unpack (w : CodeWord) (k : CoefKind) : (Code.unpack w k).pack = w &&& k.codeMask := by
  cases k with
  | alpha => exact (AlphaCode.pack_unpack w).trans BitVec.and_allOnes.symm
  | beta => exact BetaCode.pack_unpack w
  | gamma => exact BetaCode.pack_unpack w
  | delta => exact DeltaCode.pack_unpack w

theorem Code.kind_unpack (w : CodeWord) (k : CoefKind) : (Code.unpack w k).kind = k := by
  cases k <;> rfl

/-! The two fields of a request word (R47, R48, R53). -/

theorem usedOperandBits_of_encoder {op : BitVec 3} (h : op.getLsbD 2 = false) :
    usedOperandBits op = BitVec.allOnes 64 :=
  if_pos h

theorem usedOperandBits_of_decoder {op : BitVec 3} (h : op.getLsbD 2 = true) :
    usedOperandBits op = 0x1FFFFFFF#64 &&& (CoefKind.ofBits (op.extractLsb' 0 2)).codeMask.setWidth 64 := by
  revert op; decide

/-- The low 29 bits of an operand, zero-extended. -/
theorem setWidth_code_of_opnd (o : BitVec 64) : (o.extractLsb' 0 29).setWidth 64 = o &&& 0x1FFFFFFF#64 := by
  have hmask : 0x1FFFFFFF#64 = 0#35 ++ BitVec.allOnes 29 := by decide
  have hfields : o = o.extractLsb' 29 35 ++ o.extractLsb' 0 29 := by
    simp only [BitVec.extractLsb'_append_extractLsb'_eq_extractLsb', BitVec.extractLsb'_eq_self]
  conv_rhs => rw [hmask, hfields, BitVec.and_append, BitVec.and_zero, BitVec.and_allOnes]
  exact BitVec.setWidth_eq_append (by norm_num)

/-- An `op` is the unit and the kind it selects. -/
theorem op_ext {a b : BitVec 3} (hunit : a.getLsbD 2 = b.getLsbD 2)
    (hkind : CoefKind.ofBits (a.extractLsb' 0 2) = CoefKind.ofBits (b.extractLsb' 0 2)) : a = b := by
  revert a b; decide

theorem op_decode_append (op : BitVec 3) (o : BitVec 64) : (decode (op ++ o)).op = op := by
  rw [decode_append]
  split
  · next h =>
    obtain ⟨hunit, hkind⟩ := (Code.unpack (o.extractLsb' 0 29) (.ofBits (op.extractLsb' 0 2))).op_decodeInstr
    exact op_ext (hunit.trans h.symm) (hkind.trans (Code.kind_unpack _ _))
  · next h =>
    obtain ⟨hunit, hkind⟩ := (CoefKind.ofBits (op.extractLsb' 0 2)).op_encodeInstr o
    exact op_ext (hunit.trans (Bool.eq_false_iff.mpr h).symm) hkind

theorem opnd_decode_append (op : BitVec 3) (o : BitVec 64) : (decode (op ++ o)).opnd = o &&& usedOperandBits op := by
  rw [decode_append]
  split
  · next h =>
    rw [Code.opnd_decodeInstr, Code.pack_unpack, BitVec.setWidth_and, setWidth_code_of_opnd, BitVec.and_assoc,
      usedOperandBits_of_decoder h]
  · next h =>
    rw [CoefKind.opnd_encodeInstr, usedOperandBits_of_encoder (Bool.eq_false_iff.mpr h), BitVec.and_allOnes]

/-- The operation of a request word has the word's `op` (R48). -/
theorem op_decode (r : Request) : (decode r).op = r.extractLsb' 64 3 := by
  conv_lhs => rw [request_eta r]
  exact op_decode_append _ _

/-- The operand of a request word is its `opnd` on the bits its operation uses, and 0 elsewhere (R53). -/
theorem opnd_decode (r : Request) :
    (decode r).opnd = r.extractLsb' 0 64 &&& usedOperandBits (r.extractLsb' 64 3) := by
  conv_lhs => rw [request_eta r]
  exact opnd_decode_append _ _

/-- An operation is its `op` and its `opnd`: the encoder is injective. -/
theorem Instr.eq_iff (i j : Instr) : i = j ↔ i.op = j.op ∧ i.opnd = j.opnd := by
  refine ⟨fun h => h ▸ ⟨rfl, rfl⟩, fun ⟨hop, hopnd⟩ => ?_⟩
  rw [← decode_encode i, encode, hop, hopnd]
  exact decode_encode j

/-- Which request words ask for a given operation. -/
theorem decode_eq_iff (r : Request) (i : Instr) : decode r = i ↔
    r.extractLsb' 64 3 = i.op ∧ r.extractLsb' 0 64 &&& usedOperandBits (r.extractLsb' 64 3) = i.opnd := by
  rw [Instr.eq_iff, op_decode, opnd_decode]

/-- Settles O3: `decode_encode`, which asks for no well-formedness, since every operation is well-formed (R55). -/
theorem decodeOfEncodeIsTheOperation : Obligations.DecodeOfEncodeIsTheOperation :=
  fun i _ => decode_encode i

/-- Settles O4: the mask keeps `op` whole and, of `opnd`, the bits that the decoded operand keeps. -/
theorem encodeOfDecodeClearsUnusedBits : Obligations.EncodeOfDecodeClearsUnusedBits := by
  intro req
  calc encode (decode req)
      = req.extractLsb' 64 3 ++ (req.extractLsb' 0 64 &&& usedOperandBits (req.extractLsb' 64 3)) := by
        rw [encode, op_decode, opnd_decode]
    _ = (req.extractLsb' 64 3 ++ req.extractLsb' 0 64) &&& (0b111#3 ++ usedOperandBits (req.extractLsb' 64 3)) := by
        rw [BitVec.and_append, show 0b111#3 = BitVec.allOnes 3 from rfl, BitVec.and_allOnes]
    _ = req &&& (0b111#3 ++ usedOperandBits (req.extractLsb' 64 3)) := by rw [← request_eta req]

/-- Settles O5: `decode_eq_iff` at the operation of the other word; the masks agree because the `op` fields do. -/
theorem onlyUnusedBitsAreIgnored : Obligations.OnlyUnusedBitsAreIgnored := by
  intro r t
  rw [decode_eq_iff, op_decode, opnd_decode]
  exact and_congr_right fun hop => by rw [hop]

end Sys2Proof

namespace Sys2Proof.Machine

/-! The spec's words (R58). -/

theorem val64_of_half : val64 0x3FE0000000000000#64 = some (1 / 2) := by
  have hclass : class64 0x3FE0000000000000#64 = .normal := by decide
  have hsign : sign64 0x3FE0000000000000#64 = false := by decide
  have hmag : mag64 0x3FE0000000000000#64 = ⟨2 ^ 52, -53⟩ := by decide
  rw [val64_of_finiteNonzero (.inl hclass), hsign, hmag]
  norm_num [Dyad.toRat]

/-- Settles O1: `encode` writes `op` before `opnd`, and the code words are laid out as `pack` lays them out. -/
theorem requestWordIsOpAndOperand : Obligations.RequestWordIsOpAndOperand :=
  ⟨fun _ => ⟨rfl, rfl, rfl, rfl⟩, fun _ => rfl, fun _ => rfl, fun _ => rfl, fun _ => rfl, val64_of_half, by decide, by decide⟩

/-- Settles O2: each word has the `op` of its operation, and the operand on the bits that the operation uses. -/
theorem specWordsDecode : Obligations.SpecWordsDecode := by
  simp only [Obligations.SpecWordsDecode, decode_eq_iff]
  decide

end Sys2Proof.Machine
end

section
/-! Responses on the wires (R45, R46, R54): what the units put out for a request word, and that no successful encode result shows as
zero. Then the lines of a host program that pass an earlier result (R57). -/

namespace Sys2Proof

/-! The mantissa of an encoded form keeps its code word from being zero (R75). -/

theorem GammaCode.canonical_iff (c : GammaCode) :
    c.canonical = true ↔ c.g0.toNat = 131071 ∨ (c.g1.toNat = 31 ∧ c.g0.toNat ≠ 0) :=
  BetaCode.canonical_iff ⟨c.g0, c.g1⟩

theorem mantissa_ne_zero_of_canonical {c : Code} (h : c.canonical = true) : Machine.mantissa c ≠ 0 := by
  cases c with
  | alpha c => have := c.canonical_iff.mp h; simp only [Machine.mantissa]; omega
  | beta c => have := c.canonical_iff.mp h; simp only [Machine.mantissa]; omega
  | gamma c => have := c.canonical_iff.mp h; simp only [Machine.mantissa]; omega
  | delta c => have := c.canonical_iff.mp h; simp only [Machine.mantissa]; omega

theorem mantissa_unpack_zero (k : CoefKind) : Machine.mantissa (Code.unpack 0#29 k) = 0 := by
  cases k <;> rfl

theorem Code.pack_ne_zero_of_canonical {c : Code} (h : c.canonical = true) : c.pack ≠ 0#29 := by
  intro hzero
  apply mantissa_ne_zero_of_canonical h
  rw [← c.unpack_pack, hzero, mantissa_unpack_zero]

end Sys2Proof

namespace Sys2Proof.Machine

/-! The two fields of a response word (R54). -/

theorem word_getLsbD_invalid (r : Response) : r.word.getLsbD 64 = r.invalid := by
  show BitVec.getLsbD (w := 1 + 64) (BitVec.ofBool r.invalid ++ r.data) 64 = _
  rw [BitVec.getLsbD_append, if_neg (by norm_num)]
  cases r.invalid <;> rfl

theorem word_extractLsb'_data (r : Response) : r.word.extractLsb' 0 64 = r.data :=
  BitVec.extractLsb'_append_eq_right

/-- A field of `data`, read from the response word. -/
theorem word_extractLsb'_of_le (r : Response) {start len : Nat} (h : start + len ≤ 64) :
    r.word.extractLsb' start len = r.data.extractLsb' start len :=
  BitVec.extractLsb'_append_eq_of_add_le h

theorem word_encoded_code (c : Code) : (Response.encoded c).word.extractLsb' 0 29 = c.pack := by
  rw [word_extractLsb'_of_le _ (by norm_num)]
  exact zext_code c.pack

theorem word_encoded_above_code (c : Code) : (Response.encoded c).word.extractLsb' 29 35 = 0#35 := by
  rw [word_extractLsb'_of_le _ (by norm_num), Response.data]
  ext i hi
  simp

theorem word_encoded_ne_zero {c : Code} (h : c.canonical = true) : (Response.encoded c).word ≠ 0#65 := by
  intro hzero
  apply Code.pack_ne_zero_of_canonical h
  rw [← word_encoded_code, hzero, BitVec.extractLsb'_zero]

theorem canonical_of_response_eq {i : Instr} {c : Code} (h : response i = .encoded c) : c.canonical = true := by
  have hsound := response_sound i
  rwa [h] at hsound

/-- Settles O14: the type of the response gives its cases, and soundness keeps an encoded form's mantissa, so its word, from being 0. -/
theorem responseWordOfEachOutcome : Obligations.ResponseWordOfEachOutcome := by
  refine ⟨fun k x s => ⟨response (k.encodeInstr x), exec_eq _ s, ?_⟩, fun c s => ?_⟩
  · obtain hr | ⟨c, hr, hkind⟩ := (hasType_code_iff _ k).mp (hasType_response_encodeInstr k x)
    · exact .inl ⟨hr, by rw [hr]; decide⟩
    · refine .inr ⟨c, hr, hkind, ?_⟩
      rw [hr]
      exact ⟨word_getLsbD_invalid _, word_encoded_code c, word_encoded_above_code c,
        word_encoded_ne_zero (canonical_of_response_eq hr)⟩
  · obtain ⟨y, hr⟩ := (hasType_real_iff _).mp (hasType_response_decodeInstr c)
    exact ⟨y, hr ▸ exec_eq _ s, word_getLsbD_invalid _, word_extractLsb'_data _⟩

/-! The units behind a request word (R45 to R47). -/

/-- An encode outcome as a response shows what the encoder's wires put out for it. -/
theorem word_ofEncode (o : OpOutcome Code) :
    (Response.ofEncode o).word = BitVec.ofBool (encoderOutputs o).1 ++ (encoderOutputs o).2.setWidth 64 := by
  cases o <;> rfl

theorem word_response_encodeInstr (kind : BitVec 2) (x : Real64) :
    (response ((CoefKind.ofBits kind).encodeInstr x)).word =
      BitVec.ofBool (encoderUnit kind x).1 ++ (encoderUnit kind x).2.setWidth 64 := by
  rw [encoderUnit]
  cases CoefKind.ofBits kind <;> exact word_ofEncode _

theorem response_decodeInstr_unpack (kind : BitVec 2) (w : CodeWord) :
    response (Code.unpack w (CoefKind.ofBits kind)).decodeInstr = .decoded (decoderUnit kind w) := by
  rw [decoderUnit]
  cases CoefKind.ofBits kind <;> rfl

/-- The response to a request word is on the wires what the unit it selects puts out. -/
theorem word_response_decode (req : Request) : (response (decode req)).word = responseWord req := by
  rw [decode, responseWord]
  split
  · rw [response_decodeInstr_unpack]; rfl
  · exact word_response_encodeInstr _ _

/-- Settles O9: the response is that of the decoded operation, and `step_request` delivers it in every state. -/
theorem everyRequestIsAnsweredByItsUnit : Obligations.EveryRequestIsAnsweredByItsUnit := by
  refine fun req => ⟨response (decode req), word_response_decode req, fun s rest h => ?_⟩
  rw [step_request h, nextLine_eq h]
  rfl

/-! Names of earlier results (R57), case by case. -/

section Names

variable {s : State} {k : CoefKind} {n : Nat} {c : Code} {y : Real64} {rest : List HostAction} {f : Fault}

theorem namedReal_of_decoded (h : s.outcomes[n]? = some (.decoded y)) : s.namedReal n = .ok y := by
  rw [State.namedReal, h]

theorem namedReal_of_none (h : s.outcomes[n]? = none) : s.namedReal n = .error .unknownName := by
  rw [State.namedReal, h]

theorem namedReal_of_encoded (h : s.outcomes[n]? = some (.encoded c)) : s.namedReal n = .error .wrongType := by
  rw [State.namedReal, h]

theorem namedReal_of_invalidInput (h : s.outcomes[n]? = some .invalidInput) : s.namedReal n = .error .wrongType := by
  rw [State.namedReal, h]

theorem namedCode_of_encoded (h : s.outcomes[n]? = some (.encoded c)) :
    s.namedCode k n = if c.kind = k then .ok c else .error .wrongType := by
  rw [State.namedCode, h]

theorem namedCode_of_invalidInput (h : s.outcomes[n]? = some .invalidInput) :
    s.namedCode k n = .error .nothingToPass := by
  rw [State.namedCode, h]

theorem namedCode_of_none (h : s.outcomes[n]? = none) : s.namedCode k n = .error .unknownName := by
  rw [State.namedCode, h]

theorem namedCode_of_decoded (h : s.outcomes[n]? = some (.decoded y)) : s.namedCode k n = .error .wrongType := by
  rw [State.namedCode, h]

theorem step_encodeResult_eq_exec (h : s.pending = .encodeResult k n :: rest) (hy : s.namedReal n = .ok y) :
    step s = exec (k.encodeInstr y) { s with pending := rest } := by
  rw [step_encodeResult h hy, exec_eq, nextLine_eq h]

theorem step_encodeResult_of_error (h : s.pending = .encodeResult k n :: rest) (hf : s.namedReal n = .error f) :
    step s = .fault f := by
  simp only [step, h, hf]

theorem step_decodeResult_eq_exec (h : s.pending = .decodeResult k n :: rest) (hc : s.namedCode k n = .ok c) :
    step s = exec c.decodeInstr { s with pending := rest } := by
  rw [step_decodeResult h hc, exec_eq, nextLine_eq h]

end Names

/-- Settles O7: what the name stands for decides whether the line passes it or stops. -/
theorem stepPassesNamedResults : Obligations.StepPassesNamedResults := by
  refine ⟨fun s k n rest h => ⟨?_, ?_, ?_, ?_⟩, fun s k n rest h => ⟨?_, ?_, ?_, ?_, ?_⟩⟩
  · exact fun y hr => step_encodeResult_eq_exec h (namedReal_of_decoded hr)
  · exact fun hr => step_encodeResult_of_error h (namedReal_of_none hr)
  · exact fun c hr => step_encodeResult_of_error h (namedReal_of_encoded hr)
  · exact fun hr => step_encodeResult_of_error h (namedReal_of_invalidInput hr)
  · exact fun c hr hkind => step_decodeResult_eq_exec h ((namedCode_of_encoded hr).trans (if_pos hkind))
  · exact fun c hr hkind => step_decodeResult_of_error h ((namedCode_of_encoded hr).trans (if_neg hkind))
  · exact fun hr => step_decodeResult_of_error h (namedCode_of_invalidInput hr)
  · exact fun hr => step_decodeResult_of_error h (namedCode_of_none hr)
  · exact fun y hr => step_decodeResult_of_error h (namedCode_of_decoded hr)

end Sys2Proof.Machine
end

section
/-! The encode operations by the operand check (R65, R101): an operand that it rejects ends in `InvalidInput`, any other in the form of
the fields that the kind's formulas give for its magnitude (R66 to R69), packed by the kind's layout (R50 to R52). -/

namespace Sys2Proof

theorem OpOutcome.map_map {α β γ : Type} (g : β → γ) (f : α → β) (o : OpOutcome α) :
    (o.map f).map g = o.map (g ∘ f) := by
  cases o <;> rfl

/-! Code words at the response port (R50 to R52, R54). -/

/-- Zero-extending a concatenation extends its high part. -/
theorem setWidth_append_low (n : Nat) {a b : Nat} (hi : BitVec a) (lo : BitVec b) :
    (hi ++ lo).setWidth (n + b) = hi.setWidth n ++ lo := by
  rw [BitVec.setWidth_append_of_eq rfl, BitVec.setWidth_eq]

theorem AlphaCode.setWidth_pack (c : AlphaCode) :
    c.pack.setWidth 64 = (0#35 ++ c.a3 ++ c.a2 ++ c.a1 ++ c.a0 : BitVec 64) := by
  refine (setWidth_append_low 48 (c.a3 ++ c.a2 ++ c.a1) c.a0).trans (congrArg (· ++ c.a0) ?_)
  refine (setWidth_append_low 42 (c.a3 ++ c.a2) c.a1).trans (congrArg (· ++ c.a1) ?_)
  refine (setWidth_append_low 39 c.a3 c.a2).trans (congrArg (· ++ c.a2) ?_)
  exact BitVec.setWidth_eq_append (by norm_num)

theorem BetaCode.setWidth_pack (c : BetaCode) : c.pack.setWidth 64 = (0#42 ++ c.b1 ++ c.b0 : BitVec 64) := by
  refine (setWidth_append_low 47 (0#7 ++ c.b1) c.b0).trans (congrArg (· ++ c.b0) ?_)
  exact setWidth_append_low 42 0#7 c.b1

theorem DeltaCode.setWidth_pack (c : DeltaCode) : c.pack.setWidth 64 = (0#44 ++ c.d1 ++ c.d0 : BitVec 64) := by
  refine (setWidth_append_low 49 (0#9 ++ c.d1) c.d0).trans (congrArg (· ++ c.d0) ?_)
  exact setWidth_append_low 44 0#9 c.d1

end Sys2Proof

namespace Sys2Proof.Machine

/-! The operand check (R65). -/

/-- The operand check reads the exponent and fraction fields and, of a kind that needs a positive value, the sign. -/
theorem front_eq_ok_iff (k : CoefKind) (x : Real64) (q : Dyad) : front k x = .ok q ↔
    (FiniteNonzero x ∧ ¬(sign64 x = true ∧ needsPositive k = true)) ∧ mag64 x = q := by
  rw [front_eq]
  split <;> simp_all

/-- The grounds on which the operand check rejects an operand (R101). -/
theorem front_eq_invalidInput_iff (k : CoefKind) (x : Real64) : front k x = .invalidInput ↔
    class64 x = .zero ∨ class64 x = .inf ∨ class64 x = .nan ∨
      ((class64 x = .normal ∨ class64 x = .subnormal) ∧ sign64 x = true ∧ (k = .alpha ∨ k = .delta)) := by
  have hneeds : needsPositive k = true ↔ k = .alpha ∨ k = .delta := by cases k <;> decide
  rw [← hneeds]
  cases hclass : class64 x <;> simp [front, hclass]

/-- An operand that stands for no real, or for none that the kind accepts, is rejected. -/
theorem front_eq_invalidInput {k : CoefKind} {x : Real64}
    (h : ∀ v, val64 x = some v → v = 0 ∨ (needsPositive k = true ∧ v < 0)) : front k x = .invalidInput := by
  rw [front_eq, if_neg]
  rintro ⟨hf, hs⟩
  have hp := toRat_pos (mag64_sig_pos hf)
  have hv := h _ (val64_of_finiteNonzero hf)
  split at hv
  · next hsign => exact hs ⟨hsign, (hv.resolve_left (by linarith)).1⟩
  · have := (hv.resolve_left (by linarith)).2
    linarith

/-- Clearing bit 63 leaves the class and the magnitude, and makes the sign positive. -/
theorem front_clear_sign {k : CoefKind} {x : Real64} {q : Dyad} (h : front k x = .ok q) :
    front k (x &&& 0x7FFFFFFFFFFFFFFF#64) = .ok q := by
  have he := (equalBelowSign_clear x).exp64_eq
  have hf := (equalBelowSign_clear x).frac64_eq
  have hs : sign64 (x &&& 0x7FFFFFFFFFFFFFFF#64) = false := by simp [sign64]
  rw [front_eq_ok_iff] at h ⊢
  obtain ⟨⟨hfinite, -⟩, hmag⟩ := h
  refine ⟨⟨?_, by simp [hs]⟩, ?_⟩
  · simpa only [FiniteNonzero, class64, he, hf] using hfinite
  · simpa only [mag64, he, hf] using hmag

/-! What an operation delivers. -/

/-- The next state of an operation tells its response. -/
theorem exec_eq_next_iff (i : Instr) (s : State) (r : Response) :
    exec i s = .next { s with outcomes := s.outcomes ++ [r] } ↔ response i = r := by
  rw [exec_eq]
  constructor
  · intro h
    have ho := congrArg State.outcomes (Host.Outcome.next.inj h)
    simpa using ho
  · rintro rfl; rfl

/-- The form that a kind's formulas give for a positive magnitude (R66 to R69). -/
def encodedForm (tie : Tie) (q : Dyad) : CoefKind → Code
  | .alpha => .alpha (alphaFields tie q)
  | .beta => .beta (betaFields tie q)
  | .gamma => .gamma (gammaFields tie q)
  | .delta => .delta (deltaFields tie q)

theorem kind_encodedForm (tie : Tie) (q : Dyad) (k : CoefKind) : (encodedForm tie q k).kind = k := by
  cases k <;> rfl

/-- The response of an encode operation is decided by the operand check. -/
theorem response_encodeInstr (k : CoefKind) (x : Real64) :
    response (k.encodeInstr x) = .ofEncode ((front k x).map (encodedForm params.tie · k)) := by
  cases k <;> exact congrArg Response.ofEncode (OpOutcome.map_map _ _ _)

theorem exec_of_front_ok {k : CoefKind} {x : Real64} {q : Dyad} (h : front k x = .ok q) (s : State) :
    exec (k.encodeInstr x) s =
      .next { s with outcomes := s.outcomes ++ [.encoded (encodedForm params.tie q k)] } := by
  rw [exec_eq_next_iff, response_encodeInstr, h]; rfl

theorem exec_of_front_invalidInput {k : CoefKind} {x : Real64} (h : front k x = .invalidInput) (s : State) :
    exec (k.encodeInstr x) s = .next { s with outcomes := s.outcomes ++ [.invalidInput] } := by
  rw [exec_eq_next_iff, response_encodeInstr, h]; rfl

/-- Settles O13: the table lists what the operand check rejects, and no decode operation's response is of that type. -/
theorem invalidInputExactlyOnTheTable : Obligations.InvalidInputExactlyOnTheTable := by
  refine ⟨fun k x s => ?_, fun c s h => ?_⟩
  · rw [← front_eq_invalidInput_iff]
    refine ⟨fun h => exec_of_front_invalidInput h s, fun h => ?_⟩
    cases hfront : front k x with
    | ok q =>
      exact ⟨encodedForm params.tie q k, kind_encodedForm _ _ k, exec_of_front_ok hfront s,
        exec_of_front_ok (front_clear_sign hfront) s⟩
    | invalidInput => exact absurd hfront h
  · have hreal := hasType_response_decodeInstr c
    rw [(exec_eq_next_iff _ s _).mp h] at hreal
    cases hreal

/-- Settles O22: an encoded form that is delivered is canonical, so its mantissa is not 0; the upper ends are those of the field widths. -/
theorem encodedFieldsInRange : Obligations.EncodedFieldsInRange := by
  intro s x
  refine ⟨fun c h => ?_, fun c h => ?_, fun c h => ?_, fun c h => ?_⟩
  · have hc := c.canonical_iff.mp (canonical_of_response_eq ((exec_eq_next_iff _ s _).mp h))
    have h0 := c.a0.isLt; have h1 := c.a1.isLt; have h2 := c.a2.isLt; have h3 := c.a3.isLt
    omega
  · have hc := c.canonical_iff.mp (canonical_of_response_eq ((exec_eq_next_iff _ s _).mp h))
    have h0 := c.b0.isLt; have h1 := c.b1.isLt
    omega
  · have hc := c.canonical_iff.mp (canonical_of_response_eq ((exec_eq_next_iff _ s _).mp h))
    have h0 := c.g0.isLt; have h1 := c.g1.isLt
    omega
  · have hc := c.canonical_iff.mp (canonical_of_response_eq ((exec_eq_next_iff _ s _).mp h))
    have h0 := c.d0.isLt; have h1 := c.d1.isLt
    omega

/-! The formulas over the rationals (R66 to R69). -/

/-- Settles O19: the exponents of the magnitude are the clamped ceilings, and its scaled value is rounded to the mantissa. -/
theorem encAlphaMeetsItsFormulas : Obligations.EncAlphaMeetsItsFormulas := by
  intro s x
  refine ⟨decode_encode (.encAlpha x), fun h => ?_, fun q hq hpos => ?_⟩
  · refine exec_of_front_invalidInput (k := .alpha) (front_eq_invalidInput fun v hv => ?_) s
    exact (h v hv).eq_or_lt.imp_right fun hneg => ⟨rfl, hneg⟩
  · obtain ⟨hfront, rfl, hsig⟩ := front_of_pos .alpha hq hpos
    obtain ⟨h0, h1, h2, h3⟩ := alphaFields_spec .even (mag64 x)
    refine ⟨alphaFields .even (mag64 x), exec_of_front_ok hfront s, AlphaCode.setWidth_pack _,
      alphaDown (mag64 x), alphaUp (mag64 x), rnd .even (scale (mag64 x) (16 + alphaDown (mag64 x) - alphaUp (mag64 x))),
      fun hlt => ⟨_, nclog2_spec hsig, if_pos ((belowOne_iff _).mpr hlt)⟩, alphaDown_of_one_le,
      fun hgt => ⟨_, clog2_spec hsig, if_pos ((aboveOne_iff _).mpr hgt)⟩, alphaUp_of_le_one, h1, fun hy => ?_, fun hy => ?_, ?_, h0⟩
    · rw [h2, h3, splitUp_eq, if_pos hy]; exact ⟨rfl, rfl⟩
    · rw [h2, h3, splitUp_eq, if_neg hy.not_ge]; exact ⟨rfl, rfl⟩
    · rw [h2, h3, sub_sub, splitUp_sum]; exact rnd_scale _ _ _

/-- Settles O20: the operand check discards the sign, and gamma's fields are beta's. -/
theorem encBetaGammaMeetTheirFormulas : Obligations.EncBetaGammaMeetTheirFormulas := by
  intro s x
  refine ⟨decode_encode (.encBeta x), decode_encode (.encGamma x), fun h => ?_, fun q hq hne => ?_⟩
  · exact ⟨exec_of_front_invalidInput (k := .beta) (front_eq_invalidInput fun v hv => .inl (h v hv)) s,
      exec_of_front_invalidInput (k := .gamma) (front_eq_invalidInput fun v hv => .inl (h v hv)) s⟩
  · obtain ⟨hbeta, hmag, hsig⟩ := front_of_ne_zero (k := .beta) rfl hq hne
    obtain ⟨hgamma, -, -⟩ := front_of_ne_zero (k := .gamma) rfl hq hne
    obtain ⟨h0, h1⟩ := betaFields_spec .even (mag64 x)
    refine ⟨betaFields .even (mag64 x), exec_of_front_ok hbeta s, exec_of_front_ok hgamma s, BetaCode.setWidth_pack _,
      BetaCode.setWidth_pack _, nclog2 (mag64 x), rnd .even (scale (mag64 x) (17 + downExp (mag64 x))),
      hmag ▸ nclog2_spec hsig, h1, ?_, h0⟩
    rw [h1, ← hmag]; exact rnd_scale _ _ _

/-- Settles O21: the exponent of the magnitude is its clamped ceiling, and its scaled value is rounded to the mantissa. -/
theorem encDeltaMeetsItsFormulas : Obligations.EncDeltaMeetsItsFormulas := by
  intro s x
  refine ⟨decode_encode (.encDelta x), fun h => ?_, fun q hq hpos => ?_⟩
  · refine exec_of_front_invalidInput (k := .delta) (front_eq_invalidInput fun v hv => ?_) s
    exact (h v hv).eq_or_lt.imp_right fun hneg => ⟨rfl, hneg⟩
  · obtain ⟨hfront, rfl, hsig⟩ := front_of_pos .delta hq hpos
    obtain ⟨h0, h1⟩ := deltaFields_spec .even (mag64 x)
    refine ⟨deltaFields .even (mag64 x), exec_of_front_ok hfront s, DeltaCode.setWidth_pack _, nclog2 (mag64 x),
      rnd .even (scale (mag64 x) (15 + downExp (mag64 x))), nclog2_spec hsig, h1, ?_, h0⟩
    rw [h1]; exact rnd_scale _ _ _

end Sys2Proof.Machine
end

section
/-! The closed forms of the encode operations by range of the magnitude (R72 to R74): the exponents, then the mantissas, then the forms.
They hold for both values of `TIE`. -/

namespace Sys2Proof.Machine

variable {q : Dyad} {tie : Tie}

/-! Rounding near the ends of a mantissa's range (R13). -/

/-- From an exact half above an odd number on, both values of `TIE` round up. -/
theorem IsRnd.succ_le_of_half_le {x : ℚ} {r n : Nat} (h : IsRnd tie x r) (hodd : n % 2 = 1) (hx : (n : ℚ) + 1 / 2 ≤ x) :
    n + 1 ≤ r := by
  obtain ⟨hnear, htie⟩ := h
  obtain ⟨hlow, -⟩ := abs_le.mp hnear
  have hle : n ≤ r := by exact_mod_cast (by linarith : (n : ℚ) ≤ r)
  refine lt_of_le_of_ne hle fun heq => ?_
  subst heq
  have hhalf : |(n : ℚ) - x| = 1 / 2 := by
    rw [abs_of_nonpos (by linarith)]; linarith
  cases tie with
  | even => exact absurd (htie hhalf) (by simp only; omega)
  | away => exact absurd (htie hhalf) (by simp only; linarith)

/-! Exponents by range (R12). -/

theorem exists_isNclog2_of_mem (h : 0 < q.sig) {n : Nat} (hlow : (2 : ℚ) ^ (-(n : Int)) ≤ q.toRat) (hq : q.toRat < 1) :
    ∃ k : Nat, 1 ≤ k ∧ k ≤ n ∧ IsNclog2 q.toRat k := by
  have hpos := (toRat_lt_one_iff h).mp hq
  have hle := (nclog2_spec h).le hlow
  obtain ⟨k, hk⟩ := Int.eq_ofNat_of_zero_le (zero_le_one.trans hpos)
  exact ⟨k, by omega, by omega, hk ▸ nclog2_spec h⟩

theorem exists_isClog2_of_mem (h : 0 < q.sig) {n : Nat} (hq : 1 < q.toRat) (hhigh : q.toRat ≤ (2 : ℚ) ^ (n : Int)) :
    ∃ k : Nat, 1 ≤ k ∧ k ≤ n ∧ IsClog2 q.toRat k := by
  have hpos : 1 ≤ clog2 q := (clog2_spec h).ge (by simpa using hq)
  have hle := (clog2_spec h).le hhigh
  obtain ⟨k, hk⟩ := Int.eq_ofNat_of_zero_le (zero_le_one.trans hpos)
  exact ⟨k, by omega, by omega, hk ▸ clog2_spec h⟩

theorem downExp_of_one_le (h : 0 < q.sig) (hq : 1 ≤ q.toRat) : downExp q = 0 :=
  clamp_of_le (by norm_num) (nclog2_nonpos h hq)

theorem downExp_of_isNclog2 (h : 0 < q.sig) {k : Nat} (hk : IsNclog2 q.toRat k) (hle : k ≤ 31) : downExp q = k := by
  rw [downExp, ← (isNclog2_iff h k).mp hk]
  exact clamp_of_mem (by omega) (by omega)

theorem downExp_of_lt (h : 0 < q.sig) (hq : q.toRat < (2 : ℚ) ^ (-31 : Int)) : downExp q = 31 := by
  have := (nclog2_spec h).ge (n := 32) hq
  exact clamp_of_ge (by norm_num) (by omega)

theorem alphaDown_of_isNclog2 (h : 0 < q.sig) {k : Nat} (hk : IsNclog2 q.toRat k) (hle : k ≤ 63) : alphaDown q = k := by
  have heq := (isNclog2_iff h k).mp hk
  rcases lt_or_ge q.toRat 1 with hq | hq
  · rw [alphaDown, if_pos ((belowOne_iff q).mpr hq), ← heq]
    exact clamp_of_mem (by omega) (by omega)
  · have hnonpos := nclog2_nonpos h hq
    rw [alphaDown_of_one_le hq]; omega

theorem alphaDown_of_lt (h : 0 < q.sig) (hq : q.toRat < (2 : ℚ) ^ (-63 : Int)) : alphaDown q = 63 := by
  have hge := (nclog2_spec h).ge (n := 64) hq
  rw [alphaDown, if_pos ((belowOne_iff q).mpr ((toRat_lt_one_iff h).mpr (by omega)))]
  exact clamp_of_ge (by norm_num) (by omega)

theorem IsClog2.one_lt {x : ℚ} {k : Int} (hk : IsClog2 x k) (hpos : 1 ≤ k) : 1 < x :=
  calc (1 : ℚ) = 2 ^ (0 : Int) := (zpow_zero 2).symm
    _ ≤ 2 ^ (k - 1) := two_zpow_le.mpr (by omega)
    _ < x := hk.1

theorem alphaUp_of_isClog2 (h : 0 < q.sig) {k : Nat} (hk : IsClog2 q.toRat k) (hpos : 1 ≤ k) (hle : k ≤ 22) :
    alphaUp q = k := by
  rw [alphaUp, if_pos ((aboveOne_iff q).mpr (hk.one_lt (by omega))), ← (isClog2_iff h k).mp hk]
  exact clamp_of_mem (by omega) (by omega)

theorem alphaUp_of_gt (h : 0 < q.sig) (hq : 2 ^ 22 < q.toRat) : alphaUp q = 22 := by
  have hge : 23 ≤ clog2 q := (clog2_spec h).ge (by exact_mod_cast hq)
  rw [alphaUp, if_pos ((aboveOne_iff q).mpr (by linarith))]
  exact clamp_of_ge (by norm_num) (by omega)

/-! The forms (R72 to R74) as patterns. -/

theorem splitUp_natCast (k : Nat) :
    splitUp k = (((if 8 ≤ k then 7 else k : Nat) : Int), ((if 8 ≤ k then k - 7 else 0 : Nat) : Int)) := by
  rw [splitUp_eq]
  split_ifs <;> simp <;> omega

theorem alphaFields_of_exponents {d u : Nat} (hd : alphaDown q = d) (hu : alphaUp q = u) : alphaFields tie q =
    { a0 := BitVec.ofInt 16 (clamp (rnd tie (scale q (16 + d - u))) 1 65535)
      a1 := BitVec.ofNat 6 d
      a2 := BitVec.ofNat 3 (if 8 ≤ u then 7 else u)
      a3 := BitVec.ofNat 4 (if 8 ≤ u then u - 7 else 0) } := by
  rw [alphaFields_eq, sub_sub, splitUp_sum, hd, hu, splitUp_natCast]
  simp only [BitVec.ofInt_natCast]

/-- Case A of R72. -/
theorem alphaFields_of_gt (h : 0 < q.sig) (hq : 2 ^ 22 < q.toRat) : alphaFields tie q = ⟨65535, 0, 7, 15⟩ := by
  have hscaled : ((65536 : Nat) : ℚ) ≤ q.toRat * 2 ^ (16 + ((0 : Nat) : Int) - ((22 : Nat) : Int)) := by
    norm_num; linarith
  rw [alphaFields_of_exponents (alphaDown_of_one_le (by linarith)) (alphaUp_of_gt h hq),
    mantissa_saturates (top := 65536) (by norm_num) (by norm_num) hscaled]
  rfl

/-- Case B of R72. -/
theorem alphaFields_of_isClog2 (h : 0 < q.sig) {k r : Nat} (hk : IsClog2 q.toRat k) (hpos : 1 ≤ k) (hle : k ≤ 22)
    (hr : IsRnd tie (q.toRat * 2 ^ (16 - (k : Int))) r) : alphaFields tie q =
      ⟨BitVec.ofNat 16 (min r 65535), 0, BitVec.ofNat 3 (if 8 ≤ k then 7 else k), BitVec.ofNat 4 (if 8 ≤ k then k - 7 else 0)⟩ := by
  have hrnd := hr.unique (rnd_scale tie q (16 - k))
  have hge := rnd_ge_of_le_clog2 tie h ((isClog2_iff h k).mp hk).le
  have hclamp : clamp r 1 65535 = (min r 65535 : Nat) := by rw [clamp_eq_min_max (by norm_num)]; omega
  rw [alphaFields_of_exponents (alphaDown_of_one_le (hk.one_lt (by omega)).le) (alphaUp_of_isClog2 h hk hpos hle),
    Nat.cast_zero, add_zero, ← hrnd, hclamp, BitVec.ofInt_natCast]
  rfl

/-- Cases C (at `k = 0`) and D of R72. -/
theorem alphaFields_of_isNclog2 (h : 0 < q.sig) {k : Nat} (hk : IsNclog2 q.toRat k) (hq : q.toRat ≤ 1) (hle : k ≤ 63) :
    alphaFields tie q = ⟨65535, BitVec.ofNat 6 k, 0, 0⟩ := by
  rw [alphaFields_of_exponents (alphaDown_of_isNclog2 h hk hle) (alphaUp_of_le_one hq), Nat.cast_zero, sub_zero,
    mantissa_saturates_of_nclog2_le tie h (b := 16) (top := 65536) (by norm_num) (by norm_num) (by norm_num)
      ((isNclog2_iff h k).mp hk).ge]
  rfl

/-- Case E of R72. -/
theorem alphaFields_of_lt (h : 0 < q.sig) (hq : q.toRat < (2 : ℚ) ^ (-63 : Int)) {r : Nat}
    (hr : IsRnd tie (q.toRat * 2 ^ 79) r) : alphaFields tie q = ⟨BitVec.ofInt 16 (clamp r 1 65535), 63, 0, 0⟩ := by
  have hle : q.toRat ≤ 1 := hq.le.trans (by norm_num)
  rw [alphaFields_of_exponents (alphaDown_of_lt h hq) (alphaUp_of_le_one hle),
    hr.unique (rnd_scale tie q 79)]
  rfl

/-- The exponent of beta has reached the magnitude's ceiling (cases A and D of R73): the mantissa is the largest. -/
theorem betaFields_of_nclog2_le (h : 0 < q.sig) {k : Nat} (hd : downExp q = k) (hle : nclog2 q ≤ k) :
    betaFields tie q = ⟨131071, BitVec.ofNat 5 k⟩ := by
  rw [betaFields_eq, hd, mantissa_saturates_of_nclog2_le tie h (b := 17) (top := 131072) (by norm_num) (by norm_num)
    (by norm_num) hle, BitVec.ofInt_natCast]
  rfl

/-- Case E of R73. -/
theorem betaFields_of_lt (h : 0 < q.sig) (hq : q.toRat < (2 : ℚ) ^ (-31 : Int)) {r : Nat}
    (hr : IsRnd tie (q.toRat * 2 ^ 48) r) : betaFields tie q = ⟨BitVec.ofInt 17 (clamp r 1 131071), 31⟩ := by
  rw [betaFields_eq, downExp_of_lt h hq, hr.unique (rnd_scale tie q 48)]
  rfl

/-- The exponent of delta has reached the magnitude's ceiling (cases A and D of R74): the mantissa is the largest. -/
theorem deltaFields_of_nclog2_le (h : 0 < q.sig) {k : Nat} (hd : downExp q = k) (hle : nclog2 q ≤ k) :
    deltaFields tie q = ⟨32767, BitVec.ofNat 5 k⟩ := by
  rw [deltaFields_eq, hd, mantissa_saturates_of_nclog2_le tie h (b := 15) (top := 32768) (by norm_num) (by norm_num)
    (by norm_num) hle, BitVec.ofInt_natCast]
  rfl

/-- Case E of R74. -/
theorem deltaFields_of_lt (h : 0 < q.sig) (hq : q.toRat < (2 : ℚ) ^ (-31 : Int)) {r : Nat}
    (hr : IsRnd tie (q.toRat * 2 ^ 46) r) : deltaFields tie q = ⟨BitVec.ofInt 15 (clamp r 1 32767), 31⟩ := by
  rw [deltaFields_eq, downExp_of_lt h hq, hr.unique (rnd_scale tie q 46)]
  rfl

/-! The encode functions on the value of their operand. -/

section Operand

variable {x : Real64} {v : ℚ}

/-- An operand of alpha is encoded by its value. -/
theorem encodeAlpha_of_pos (hv : val64 x = some v) (hpos : 0 < v) :
    ∃ q : Dyad, q.toRat = v ∧ 0 < q.sig ∧ ∀ tie, encodeAlpha tie x = .ok (alphaFields tie q) := by
  obtain ⟨hfront, hmag, hsig⟩ := front_of_pos .alpha hv hpos
  exact ⟨mag64 x, hmag, hsig, fun tie => by rw [encodeAlpha, hfront]; rfl⟩

/-- An operand of beta is encoded by its magnitude. -/
theorem encodeBeta_of_ne_zero (hv : val64 x = some v) (hne : v ≠ 0) :
    ∃ q : Dyad, q.toRat = |v| ∧ 0 < q.sig ∧ ∀ tie, encodeBeta tie x = .ok (betaFields tie q) := by
  obtain ⟨hfront, hmag, hsig⟩ := front_of_ne_zero (k := .beta) rfl hv hne
  exact ⟨mag64 x, hmag, hsig, fun tie => by rw [encodeBeta, hfront]; rfl⟩

/-- An operand of delta is encoded by its value. -/
theorem encodeDelta_of_pos (hv : val64 x = some v) (hpos : 0 < v) :
    ∃ q : Dyad, q.toRat = v ∧ 0 < q.sig ∧ ∀ tie, encodeDelta tie x = .ok (deltaFields tie q) := by
  obtain ⟨hfront, hmag, hsig⟩ := front_of_pos .delta hv hpos
  exact ⟨mag64 x, hmag, hsig, fun tie => by rw [encodeDelta, hfront]; rfl⟩

end Operand

/-- Below `2^m`, scaling by `2^n` stays below `2^(m+n)`. -/
theorem mul_two_pow_lt {v : ℚ} {m : Int} (hv : v < (2 : ℚ) ^ m) (n : Nat) : v * 2 ^ n < (2 : ℚ) ^ (m + n) := by
  rw [two_zpow_add, zpow_natCast]
  exact mul_lt_mul_of_pos_right hv (by positivity)

/-- Settles O23: the cases of R72, each read off the exponents of its range. -/
theorem alphaClosedForm : Obligations.AlphaClosedForm := by
  intro tie x v hv hpos
  obtain ⟨q, rfl, hsig, henc⟩ := encodeAlpha_of_pos hv hpos
  simp only [henc, OpOutcome.ok.injEq]
  refine ⟨alphaFields_of_gt hsig, fun hgt hle => ?_, fun hone => ?_, fun hlow hlt => ?_, fun hlt => ?_⟩
  · obtain ⟨k, hk₁, hk₂, hk⟩ := exists_isClog2_of_mem hsig (n := 22) hgt (by exact_mod_cast hle)
    have hr := rnd_scale tie q (16 - k)
    obtain ⟨hlow, hhigh⟩ := hk.scaled 16
    norm_num at hlow hhigh
    have hr₁ := hr.ge_of_ge (n := 32768) (by exact_mod_cast hlow.le)
    have hr₂ := hr.le_of_le (n := 65536) (by exact_mod_cast hhigh)
    refine ⟨k, _, hk₁, hk₂, hk, hlow, hhigh, hr, fun hcarry => ?_, by omega, alphaFields_of_isClog2 hsig hk hk₁ hk₂ hr⟩
    exact hr₂.antisymm (hr.succ_le_of_half_le (n := 65535) rfl (by exact_mod_cast hcarry))
  · have hk : IsNclog2 q.toRat (0 : Nat) := by rw [hone]; exact isNclog2_two_zpow 0
    exact alphaFields_of_isNclog2 hsig hk hone.le (by norm_num)
  · obtain ⟨k, hk₁, hk₂, hk⟩ := exists_isNclog2_of_mem hsig (n := 63) hlow hlt
    obtain ⟨hge, hlt'⟩ := hk.scaled 16
    refine ⟨k, hk₁, hk₂, hk, ?_, ?_, alphaFields_of_isNclog2 hsig hk hlt.le hk₂⟩
    · exact_mod_cast hge
    · exact_mod_cast hlt'
  · have hr := rnd_scale tie q (79 : Nat)
    rw [zpow_natCast] at hr
    refine ⟨_, by positivity, ?_, hr, alphaFields_of_lt hsig hlt hr⟩
    exact (mul_two_pow_lt hlt 79).trans_eq (by norm_num)

/-- Settles O24: the cases of R73 for beta; gamma's fields are beta's. -/
theorem betaGammaClosedForm : Obligations.BetaGammaClosedForm := by
  intro tie x v hv hne
  obtain ⟨q, hq, hsig, henc⟩ := encodeBeta_of_ne_zero hv hne
  have hpos := toRat_pos hsig
  simp only [encodeGamma_eq, henc, ← hq]
  refine ⟨fun hone => ?_, fun hlow hlt => ?_, fun hlt => ?_⟩
  · rw [betaFields_of_nclog2_le (k := 0) hsig (downExp_of_one_le hsig hone) (nclog2_nonpos hsig hone)]
    exact ⟨by linarith, rfl, rfl⟩
  · obtain ⟨k, hk₁, hk₂, hk⟩ := exists_isNclog2_of_mem hsig (n := 31) hlow hlt
    rw [betaFields_of_nclog2_le hsig (downExp_of_isNclog2 hsig hk hk₂) ((isNclog2_iff hsig k).mp hk).ge]
    refine ⟨k, hk₁, hk₂, hk, ?_, rfl, rfl⟩
    exact_mod_cast (hk.scaled 17).1
  · have hr := rnd_scale tie q (48 : Nat)
    rw [zpow_natCast] at hr
    rw [betaFields_of_lt hsig hlt hr]
    exact ⟨_, by positivity, (mul_two_pow_lt hlt 48).trans_eq (by norm_num), hr, rfl, rfl⟩

/-- Settles O25: the cases of R74. -/
theorem deltaClosedForm : Obligations.DeltaClosedForm := by
  intro tie x v hv hpos
  obtain ⟨q, rfl, hsig, henc⟩ := encodeDelta_of_pos hv hpos
  simp only [henc, OpOutcome.ok.injEq]
  refine ⟨fun hone => ?_, fun hlow hlt => ?_, fun hlt => ?_⟩
  · exact deltaFields_of_nclog2_le (k := 0) hsig (downExp_of_one_le hsig hone) (nclog2_nonpos hsig hone)
  · obtain ⟨k, hk₁, hk₂, hk⟩ := exists_isNclog2_of_mem hsig (n := 31) hlow hlt
    exact ⟨k, hk₁, hk₂, hk,
      deltaFields_of_nclog2_le hsig (downExp_of_isNclog2 hsig hk hk₂) ((isNclog2_iff hsig k).mp hk).ge⟩
  · have hr := rnd_scale tie q (46 : Nat)
    rw [zpow_natCast] at hr
    exact ⟨_, by positivity, (mul_two_pow_lt hlt 46).trans_eq (by norm_num), hr, deltaFields_of_lt hsig hlt hr⟩

end Sys2Proof.Machine
end

section
/-! The canonical forms (R75) as the forms that encode operations return, each from an operand of its own, and as forms that decoding
tells apart (R91, R95). -/

namespace Sys2Proof

/-! Encoded forms are their fields as integers. -/

theorem AlphaCode.eq_of_toNat {c d : AlphaCode} (h0 : c.a0.toNat = d.a0.toNat) (h1 : c.a1.toNat = d.a1.toNat)
    (h2 : c.a2.toNat = d.a2.toNat) (h3 : c.a3.toNat = d.a3.toNat) : c = d := by
  rw [BitVec.toNat_inj] at h0 h1 h2 h3
  cases c; cases d; simp_all only

theorem BetaCode.eq_of_toNat {c d : BetaCode} (h0 : c.b0.toNat = d.b0.toNat) (h1 : c.b1.toNat = d.b1.toNat) : c = d := by
  rw [BitVec.toNat_inj] at h0 h1
  cases c; cases d; simp_all only

theorem DeltaCode.eq_of_toNat {c d : DeltaCode} (h0 : c.d0.toNat = d.d0.toNat) (h1 : c.d1.toNat = d.d1.toNat) : c = d := by
  rw [BitVec.toNat_inj] at h0 h1
  cases c; cases d; simp_all only

end Sys2Proof

namespace Sys2Proof.Machine

/-! The value of a decoded pattern (R86 to R89). -/

/-- A mantissa field scaled by an exponent that the decode formulas can reach is written exactly. -/
theorem val64_enc64_field {w : Nat} (v : BitVec w) {n : Int} (hw : w ≤ 53) (hlow : -79 ≤ n) (hhigh : n + w ≤ 22) :
    val64 (enc64 v.toNat n) = some ((v.toNat : ℚ) * 2 ^ n) := by
  have hlog : v.toNat.log2 ≤ w := by
    rw [Nat.log2_eq_log_two]
    exact (Nat.log_mono_right v.isLt.le).trans_eq (Nat.log_pow one_lt_two w)
  exact val64_enc64 (v.isLt.trans_le (Nat.pow_le_pow_right (by norm_num) hw)) (fun _ => by omega) (by omega)

theorem val64_decodeAlpha (c : AlphaCode) : val64 (decodeAlpha c) =
    some ((c.a0.toNat : ℚ) * 2 ^ (-16 - (c.a1.toNat : Int) + c.a2.toNat + c.a3.toNat)) := by
  have h1 := c.a1.isLt; have h2 := c.a2.isLt; have h3 := c.a3.isLt
  exact val64_enc64_field (n := -16 - (c.a1.toNat : Int) + c.a2.toNat + c.a3.toNat) c.a0 (by norm_num) (by omega) (by omega)

theorem val64_decodeBeta (c : BetaCode) :
    val64 (decodeBeta c) = some ((c.b0.toNat : ℚ) * 2 ^ (-17 - (c.b1.toNat : Int))) := by
  have h1 := c.b1.isLt
  exact val64_enc64_field (n := -17 - (c.b1.toNat : Int)) c.b0 (by norm_num) (by omega) (by omega)

theorem val64_decodeDelta (c : DeltaCode) :
    val64 (decodeDelta c) = some ((c.d0.toNat : ℚ) * 2 ^ (-15 - (c.d1.toNat : Int))) := by
  have h1 := c.d1.isLt
  exact val64_enc64_field (n := -15 - (c.d1.toNat : Int)) c.d0 (by norm_num) (by omega) (by omega)

/-! Normalised mantissas, which the value tells apart. -/

/-- A mantissa `m` of at most `b + 1` bits with an exponent from `lo` on has its leading bit set, unless the exponent is at its end. -/
def Normalised (b : Nat) (lo : Int) (m : Nat) (e : Int) : Prop :=
  m < 2 ^ (b + 1) ∧ lo ≤ e ∧ (e = lo ∨ 2 ^ b ≤ m)

section Normalised

variable {b m m' : Nat} {lo e e' : Int}

theorem Normalised.exponent_le (h : Normalised b lo m e) (h' : Normalised b lo m' e')
    (heq : (m : ℚ) * 2 ^ e = m' * 2 ^ e') : e ≤ e' := by
  obtain ⟨-, -, hnorm⟩ := h
  obtain ⟨hm', hlo, -⟩ := h'
  by_contra hlt
  obtain ⟨d, hd⟩ := Int.eq_ofNat_of_zero_le (by omega : 0 ≤ e - e' - 1)
  obtain rfl : e = ((d + 1 : Nat) : Int) + e' := by push_cast; omega
  rw [two_zpow_add, zpow_natCast, ← mul_assoc] at heq
  have hshift : m * 2 ^ (d + 1) = m' := by exact_mod_cast mul_right_cancel₀ (two_zpow_pos e').ne' heq
  have hlead : 2 ^ b ≤ m := hnorm.resolve_left (by omega)
  have hpow : m * 2 ^ 1 ≤ m * 2 ^ (d + 1) := Nat.mul_le_mul_left m (Nat.pow_le_pow_right (by norm_num) (by omega))
  rw [pow_succ] at hm'
  omega

theorem Normalised.unique (h : Normalised b lo m e) (h' : Normalised b lo m' e')
    (heq : (m : ℚ) * 2 ^ e = m' * 2 ^ e') : m = m' ∧ e = e' := by
  have he : e = e' := (h.exponent_le h' heq).antisymm (h'.exponent_le h heq.symm)
  subst he
  exact ⟨by exact_mod_cast mul_right_cancel₀ (two_zpow_pos e).ne' heq, rfl⟩

end Normalised

theorem normalised_of_canonical_alpha {c : AlphaCode} (h : c.canonical = true) :
    Normalised 15 (-79) c.a0.toNat (-16 - (c.a1.toNat : Int) + c.a2.toNat + c.a3.toNat) := by
  have h0 := c.a0.isLt; have h1 := c.a1.isLt
  have hc := c.canonical_iff.mp h
  exact ⟨h0, by omega, by omega⟩

theorem normalised_of_canonical_beta {c : BetaCode} (h : c.canonical = true) :
    Normalised 16 (-48) c.b0.toNat (-17 - (c.b1.toNat : Int)) := by
  have h0 := c.b0.isLt; have h1 := c.b1.isLt
  have hc := c.canonical_iff.mp h
  exact ⟨h0, by omega, by omega⟩

theorem normalised_of_canonical_delta {c : DeltaCode} (h : c.canonical = true) :
    Normalised 14 (-46) c.d0.toNat (-15 - (c.d1.toNat : Int)) := by
  have h0 := c.d0.isLt; have h1 := c.d1.isLt
  have hc := c.canonical_iff.mp h
  exact ⟨h0, by omega, by omega⟩

theorem decodeAlpha_injective {c d : AlphaCode} (hc : c.canonical = true) (hd : d.canonical = true)
    (h : decodeAlpha c = decodeAlpha d) : c = d := by
  have hv := congrArg val64 h
  rw [val64_decodeAlpha, val64_decodeAlpha, Option.some.injEq] at hv
  obtain ⟨hm, he⟩ := (normalised_of_canonical_alpha hc).unique (normalised_of_canonical_alpha hd) hv
  have hc := c.canonical_iff.mp hc
  have hd := d.canonical_iff.mp hd
  have hc2 := c.a2.isLt; have hd2 := d.a2.isLt
  exact AlphaCode.eq_of_toNat hm (by omega) (by omega) (by omega)

theorem decodeBeta_injective {c d : BetaCode} (hc : c.canonical = true) (hd : d.canonical = true)
    (h : decodeBeta c = decodeBeta d) : c = d := by
  have hv := congrArg val64 h
  rw [val64_decodeBeta, val64_decodeBeta, Option.some.injEq] at hv
  obtain ⟨hm, he⟩ := (normalised_of_canonical_beta hc).unique (normalised_of_canonical_beta hd) hv
  exact BetaCode.eq_of_toNat hm (by omega)

theorem decodeDelta_injective {c d : DeltaCode} (hc : c.canonical = true) (hd : d.canonical = true)
    (h : decodeDelta c = decodeDelta d) : c = d := by
  have hv := congrArg val64 h
  rw [val64_decodeDelta, val64_decodeDelta, Option.some.injEq] at hv
  obtain ⟨hm, he⟩ := (normalised_of_canonical_delta hc).unique (normalised_of_canonical_delta hd) hv
  exact DeltaCode.eq_of_toNat hm (by omega)

theorem decodeGamma_injective {c d : GammaCode} (hc : c.canonical = true) (hd : d.canonical = true)
    (h : decodeGamma c = decodeGamma d) : c = d := by
  have hbeta := decodeBeta_injective (c := ⟨c.g0, c.g1⟩) (d := ⟨d.g0, d.g1⟩) hc hd h
  cases c; cases d; simp_all only [BetaCode.mk.injEq]

theorem response_decodeInstr_injective {c d : Code} (hkind : c.kind = d.kind) (hc : c.canonical = true)
    (hd : d.canonical = true) (h : response c.decodeInstr = response d.decodeInstr) : c = d := by
  match c, d, hkind with
  | .alpha c, .alpha d, _ => exact congrArg Code.alpha (decodeAlpha_injective hc hd (Response.decoded.inj h))
  | .beta c, .beta d, _ => exact congrArg Code.beta (decodeBeta_injective hc hd (Response.decoded.inj h))
  | .gamma c, .gamma d, _ => exact congrArg Code.gamma (decodeGamma_injective hc hd (Response.decoded.inj h))
  | .delta c, .delta d, _ => exact congrArg Code.delta (decodeDelta_injective hc hd (Response.decoded.inj h))

/-- Settles O34: a canonical mantissa is normalised, so the value tells mantissa and exponent, and these the fields. -/
theorem decodeInjectiveOnCanonicalForms : Obligations.DecodeInjectiveOnCanonicalForms := by
  refine ⟨fun c d s hkind hc hd ⟨y, hcy, hdy⟩ => ?_, fun s => ?_⟩
  · rw [exec_eq_next_iff] at hcy hdy
    exact response_decodeInstr_injective hkind hc hd (hcy.trans hdy.symm)
  · have halike : decodeAlpha ⟨2, 0, 0, 0⟩ = decodeAlpha ⟨1, 0, 1, 0⟩ := by decide
    rw [exec_eq, exec_eq, response, response, halike]

/-! An operand for every canonical form (R75). -/

/-- Every positive `m * 2^n` of at most 53 bits, far inside the range of exponents, is the magnitude of an operand of every kind. -/
theorem exists_operand (k : CoefKind) {m : Nat} {n : Int} (hm : m ≠ 0) (hbits : m < 2 ^ 53) (hlow : -900 ≤ n) (hhigh : n ≤ 900) :
    ∃ (x : Real64) (q : Dyad), front k x = .ok q ∧ 0 < q.sig ∧ q.toRat = m * 2 ^ n := by
  have hlog : m.log2 < 53 := (Nat.log2_lt hm).mpr hbits
  have hval := val64_enc64 (n := n) hbits (fun _ => by omega) (by omega)
  obtain ⟨hfront, hmag, hsig⟩ := front_of_pos k hval (mul_pos (by positivity) (two_zpow_pos n))
  exact ⟨_, _, hfront, hsig, hmag⟩

/-- The magnitude `m * 2^n` is that of an operand and is encoded as `c`. -/
def EncodesTo (m : Nat) (n : Int) (c : Code) : Prop :=
  m ≠ 0 ∧ m < 2 ^ 53 ∧ -900 ≤ n ∧ n ≤ 900 ∧
    ∀ (tie : Tie) (q : Dyad), 0 < q.sig → q.toRat = m * 2 ^ n → encodedForm tie q c.kind = c

theorem EncodesTo.exists_exec {m : Nat} {n : Int} {c : Code} (h : EncodesTo m n c) :
    ∃ x : Real64, ∀ s : State,
      exec (c.kind.encodeInstr x) s = .next { s with outcomes := s.outcomes ++ [.encoded c] } := by
  obtain ⟨hm, hbits, hlow, hhigh, henc⟩ := h
  obtain ⟨x, q, hfront, hsig, hq⟩ := exists_operand c.kind hm hbits hlow hhigh
  refine ⟨x, fun s => ?_⟩
  rw [exec_of_front_ok hfront s, henc _ q hsig hq]

theorem isNclog2_one_mul (k : Nat) : IsNclog2 (((1 : Nat) : ℚ) * 2 ^ (-(k : Int))) k := by
  have h := isNclog2_two_zpow (-(k : Int))
  rwa [neg_neg, ← one_mul ((2 : ℚ) ^ (-(k : Int))), ← Nat.cast_one] at h

theorem one_mul_two_zpow_neg_le_one (k : Nat) : ((1 : Nat) : ℚ) * 2 ^ (-(k : Int)) ≤ 1 := by
  rw [Nat.cast_one, one_mul, ← zpow_zero (2 : ℚ), two_zpow_le]
  omega

theorem natCast_two_pow_mul (n : Nat) (e : Int) : ((2 ^ n : Nat) : ℚ) * 2 ^ e = 2 ^ ((n : Int) + e) := by
  rw [two_zpow_add, zpow_natCast, Nat.cast_pow, Nat.cast_ofNat]

/-- A quarter above a mantissa of 16 bits with its leading bit set: within the binade of R72, case B. -/
theorem isClog2_quarter {m : Nat} (hlow : 32768 ≤ m) (hhigh : m < 65536) (k : Int) :
    IsClog2 (((4 * m + 1 : Nat) : ℚ) * 2 ^ (k - 18)) k := by
  have hp := two_zpow_pos (k - 18)
  constructor
  · calc (2 : ℚ) ^ (k - 1) = ((2 ^ 17 : Nat) : ℚ) * 2 ^ (k - 18) := by
          rw [natCast_two_pow_mul]; congr 1; omega
      _ < _ := mul_lt_mul_of_pos_right (Nat.cast_lt.mpr (by omega)) hp
  · calc ((4 * m + 1 : Nat) : ℚ) * 2 ^ (k - 18) ≤ ((2 ^ 18 : Nat) : ℚ) * 2 ^ (k - 18) :=
          mul_le_mul_of_nonneg_right (Nat.cast_le.mpr (by omega)) hp.le
      _ = 2 ^ k := by rw [natCast_two_pow_mul]; congr 1; omega

/-- A quarter above an integer is rounded to it, by both values of `TIE`. -/
theorem isRnd_quarter (tie : Tie) (m : Nat) (k : Int) :
    IsRnd tie (((4 * m + 1 : Nat) : ℚ) * 2 ^ (k - 18) * 2 ^ (16 - k)) m := by
  have hscaled : ((4 * m + 1 : Nat) : ℚ) * 2 ^ (k - 18) * 2 ^ (16 - k) = m + 1 / 4 := by
    rw [mul_assoc, ← two_zpow_add, show k - 18 + (16 - k) = -2 by ring]
    push_cast; norm_num; ring
  have hnear : |(m : ℚ) - (m + 1 / 4)| = 1 / 4 := by norm_num [abs_of_nonneg]
  rw [hscaled]
  exact ⟨by rw [hnear]; norm_num, fun he => absurd (hnear.symm.trans he) (by norm_num)⟩

/-- An integer scaled down and up again is rounded to itself. -/
theorem isRnd_unscaled (tie : Tie) (m n : Nat) : IsRnd tie ((m : ℚ) * 2 ^ (-(n : Int)) * 2 ^ n) m := by
  rw [mul_assoc, ← zpow_natCast, ← two_zpow_add, neg_add_cancel, zpow_zero, mul_one]
  exact isRnd_natCast tie m

/-- A mantissa of `b` bits scaled by `2^e` lies below `2^(b+e)`. -/
theorem field_mul_lt {b : Nat} (v : BitVec b) (e : Int) : (v.toNat : ℚ) * 2 ^ e < 2 ^ ((b : Int) + e) := by
  rw [← natCast_two_pow_mul]
  exact mul_lt_mul_of_pos_right (Nat.cast_lt.mpr v.isLt) (two_zpow_pos e)

/-- A mantissa field other than 0 is its own clamped value. -/
theorem ofInt_clamp_field {b hi : Nat} (v : BitVec b) (hv : v.toNat ≠ 0) (hhi : hi + 1 = 2 ^ b) :
    BitVec.ofInt b (clamp v.toNat 1 hi) = v := by
  have hlt := v.isLt
  rw [clamp_of_mem (by omega) (by omega), BitVec.ofInt_natCast, BitVec.ofNat_toNat, BitVec.setWidth_eq]

/-- The forms `(65535, k, 0, 0)` encode `2^(-k)`. -/
theorem encodesTo_alpha_saturated {c : AlphaCode} (h0 : c.a0.toNat = 65535) (h2 : c.a2.toNat = 0) (h3 : c.a3.toNat = 0) :
    EncodesTo 1 (-(c.a1.toNat : Int)) (.alpha c) := by
  have h1 := c.a1.isLt
  refine ⟨by norm_num, by norm_num, by omega, by omega, fun tie q hsig hq => congrArg Code.alpha ?_⟩
  rw [alphaFields_of_isNclog2 hsig (hq ▸ isNclog2_one_mul _) (hq ▸ one_mul_two_zpow_neg_le_one _) (by omega)]
  exact AlphaCode.eq_of_toNat h0.symm (by simp) h2.symm h3.symm

/-- The forms `(m, 63, 0, 0)` encode `m * 2^(-79)`. -/
theorem encodesTo_alpha_low {c : AlphaCode} (h0 : c.a0.toNat ≠ 0) (h1 : c.a1.toNat = 63) (h2 : c.a2.toNat = 0)
    (h3 : c.a3.toNat = 0) : EncodesTo c.a0.toNat (-79) (.alpha c) := by
  have hlt := c.a0.isLt
  refine ⟨h0, by omega, by norm_num, by norm_num, fun tie q hsig hq => congrArg Code.alpha ?_⟩
  rw [alphaFields_of_lt hsig (hq ▸ field_mul_lt c.a0 (-79)) (hq ▸ isRnd_unscaled tie c.a0.toNat 79)]
  exact AlphaCode.eq_of_toNat (congrArg _ (ofInt_clamp_field (hi := 65535) c.a0 h0 (by norm_num))) h1.symm h2.symm h3.symm

/-- The forms `(m, 0, split k)` encode `m + 1/4`, scaled by `2^(k - 16)`. -/
theorem encodesTo_alpha_up {c : AlphaCode} (h0 : 32768 ≤ c.a0.toNat) (h1 : c.a1.toNat = 0) (h2 : c.a2.toNat ≠ 0)
    (h3 : c.a3.toNat = 0 ∨ c.a2.toNat = 7) :
    EncodesTo (4 * c.a0.toNat + 1) (((c.a2.toNat + c.a3.toNat : Nat) : Int) - 18) (.alpha c) := by
  have hlt0 := c.a0.isLt; have hlt2 := c.a2.isLt; have hlt3 := c.a3.isLt
  refine ⟨by omega, by omega, by omega, by omega, fun tie q hsig hq => congrArg Code.alpha ?_⟩
  rw [alphaFields_of_isClog2 hsig (hq ▸ isClog2_quarter h0 hlt0 _) (by omega) (by omega) (hq ▸ isRnd_quarter tie _ _)]
  refine AlphaCode.eq_of_toNat ?_ h1.symm ?_ ?_
  · rw [BitVec.toNat_ofNat]; omega
  · rw [BitVec.toNat_ofNat]; split <;> omega
  · rw [BitVec.toNat_ofNat]; split <;> omega

/-- The forms `(131071, k)` of beta encode `2^(-k)`. -/
theorem encodesTo_beta_saturated {c : BetaCode} (h0 : c.b0.toNat = 131071) :
    EncodesTo 1 (-(c.b1.toNat : Int)) (.beta c) := by
  have h1 := c.b1.isLt
  refine ⟨by norm_num, by norm_num, by omega, by omega, fun tie q hsig hq => congrArg Code.beta ?_⟩
  have hk : IsNclog2 q.toRat c.b1.toNat := hq ▸ isNclog2_one_mul _
  rw [betaFields_of_nclog2_le hsig (downExp_of_isNclog2 hsig hk (by omega)) ((isNclog2_iff hsig _).mp hk).ge]
  exact BetaCode.eq_of_toNat h0.symm (by simp)

/-- The forms `(m, 31)` of beta encode `m * 2^(-48)`. -/
theorem encodesTo_beta_low {c : BetaCode} (h0 : c.b0.toNat ≠ 0) (h1 : c.b1.toNat = 31) :
    EncodesTo c.b0.toNat (-48) (.beta c) := by
  have hlt := c.b0.isLt
  refine ⟨h0, by omega, by norm_num, by norm_num, fun tie q hsig hq => congrArg Code.beta ?_⟩
  rw [betaFields_of_lt hsig (hq ▸ field_mul_lt c.b0 (-48)) (hq ▸ isRnd_unscaled tie c.b0.toNat 48)]
  exact BetaCode.eq_of_toNat (congrArg _ (ofInt_clamp_field (hi := 131071) c.b0 h0 (by norm_num))) h1.symm

/-- The forms `(32767, k)` of delta encode `2^(-k)`. -/
theorem encodesTo_delta_saturated {c : DeltaCode} (h0 : c.d0.toNat = 32767) :
    EncodesTo 1 (-(c.d1.toNat : Int)) (.delta c) := by
  have h1 := c.d1.isLt
  refine ⟨by norm_num, by norm_num, by omega, by omega, fun tie q hsig hq => congrArg Code.delta ?_⟩
  have hk : IsNclog2 q.toRat c.d1.toNat := hq ▸ isNclog2_one_mul _
  rw [deltaFields_of_nclog2_le hsig (downExp_of_isNclog2 hsig hk (by omega)) ((isNclog2_iff hsig _).mp hk).ge]
  exact DeltaCode.eq_of_toNat h0.symm (by simp)

/-- The forms `(m, 31)` of delta encode `m * 2^(-46)`. -/
theorem encodesTo_delta_low {c : DeltaCode} (h0 : c.d0.toNat ≠ 0) (h1 : c.d1.toNat = 31) :
    EncodesTo c.d0.toNat (-46) (.delta c) := by
  have hlt := c.d0.isLt
  refine ⟨h0, by omega, by norm_num, by norm_num, fun tie q hsig hq => congrArg Code.delta ?_⟩
  rw [deltaFields_of_lt hsig (hq ▸ field_mul_lt c.d0 (-46)) (hq ▸ isRnd_unscaled tie c.d0.toNat 46)]
  exact DeltaCode.eq_of_toNat (congrArg _ (ofInt_clamp_field (hi := 32767) c.d0 h0 (by norm_num))) h1.symm

theorem exists_encodesTo_beta {c : BetaCode} (h : c.canonical = true) : ∃ m n, EncodesTo m n (.beta c) := by
  obtain h0 | ⟨h1, h0⟩ := c.canonical_iff.mp h
  · exact ⟨_, _, encodesTo_beta_saturated h0⟩
  · exact ⟨_, _, encodesTo_beta_low h0 h1⟩

/-- What encodes as a form of beta encodes as gamma's form with the same fields (R68). -/
theorem EncodesTo.gamma {m : Nat} {n : Int} {c : GammaCode} (h : EncodesTo m n (.beta ⟨c.g0, c.g1⟩)) :
    EncodesTo m n (.gamma c) := by
  obtain ⟨hm, hbits, hlow, hhigh, henc⟩ := h
  refine ⟨hm, hbits, hlow, hhigh, fun tie q hsig hq => congrArg Code.gamma ?_⟩
  rw [gammaFields_eq, Code.beta.inj (henc tie q hsig hq)]

theorem exists_encodesTo_of_canonical {c : Code} (h : c.canonical = true) : ∃ m n, EncodesTo m n c := by
  cases c with
  | alpha c =>
    obtain ⟨h0, h2, h3⟩ | ⟨h1, h2, h3, h0⟩ | ⟨h1, h0, h2, h3⟩ := c.canonical_iff.mp h
    · exact ⟨_, _, encodesTo_alpha_saturated h0 h2 h3⟩
    · exact ⟨_, _, encodesTo_alpha_low h0 h1 h2 h3⟩
    · exact ⟨_, _, encodesTo_alpha_up h0 h1 h2 h3⟩
  | beta c => exact exists_encodesTo_beta h
  | gamma c =>
    obtain ⟨m, n, hbeta⟩ := exists_encodesTo_beta (c := ⟨c.g0, c.g1⟩) h
    exact ⟨m, n, hbeta.gamma⟩
  | delta c =>
    obtain h0 | ⟨h1, h0⟩ := c.canonical_iff.mp h
    · exact ⟨_, _, encodesTo_delta_saturated h0⟩
    · exact ⟨_, _, encodesTo_delta_low h0 h1⟩

/-- Settles O26: every canonical form has an operand that encodes to it, and every form that is delivered is sound. -/
theorem canonicalFormsAreExactlyTheEncodedOnes : Obligations.CanonicalFormsAreExactlyTheEncodedOnes := by
  refine fun c => ⟨fun h => ?_, fun ⟨x, h⟩ => ?_⟩
  · obtain ⟨m, n, henc⟩ := exists_encodesTo_of_canonical h
    exact henc.exists_exec
  · exact canonical_of_response_eq ((exec_eq_next_iff _ _ _).mp (h State.reset))

end Sys2Proof.Machine
end

section
/-! The decode operations by the mantissa and the quantization step of their form (R85 to R92): what they deliver, its exact value, and
its class, sign and exponent field. The four kinds differ only in the numbers of the tables below. -/

namespace Sys2Proof

/-- The width of a kind's mantissa field, which is also the bias of its exponent (R5, R6). -/
@[simp] def CoefKind.mantissaBits : CoefKind → Nat
  | .alpha => 16
  | .beta => 17
  | .gamma => 17
  | .delta => 15

/-- The largest value of a kind's downward exponent field (R5). -/
@[simp] def CoefKind.maxDown : CoefKind → Nat
  | .alpha => 63
  | .beta => 31
  | .gamma => 31
  | .delta => 31

/-- The largest value of alpha's upward exponent `a2 + a3`; the other kinds have none (R5). -/
@[simp] def CoefKind.maxUp : CoefKind → Nat
  | .alpha => 22
  | .beta => 0
  | .gamma => 0
  | .delta => 0

/-! The request words (R86 to R89). -/

theorem encode_decAlpha (c : AlphaCode) :
    encode (.decAlpha c) = 0b100#3 ++ 0#35 ++ c.a3 ++ c.a2 ++ c.a1 ++ c.a0 := by
  rw [encode, Instr.op, Instr.opnd, AlphaCode.setWidth_pack]
  simp only [BitVec.append_assoc, BitVec.cast_eq]

theorem encode_decBeta (c : BetaCode) : encode (.decBeta c) = 0b101#3 ++ 0#42 ++ c.b1 ++ c.b0 := by
  rw [encode, Instr.op, Instr.opnd, BetaCode.setWidth_pack]
  simp only [BitVec.append_assoc, BitVec.cast_eq]

theorem encode_decGamma (c : GammaCode) : encode (.decGamma c) = 0b110#3 ++ 0#42 ++ c.g1 ++ c.g0 := by
  rw [encode, Instr.op, Instr.opnd, GammaCode.pack_eq, BetaCode.setWidth_pack]
  simp only [BitVec.append_assoc, BitVec.cast_eq]

theorem encode_decDelta (c : DeltaCode) : encode (.decDelta c) = 0b111#3 ++ 0#44 ++ c.d1 ++ c.d0 := by
  rw [encode, Instr.op, Instr.opnd, DeltaCode.setWidth_pack]
  simp only [BitVec.append_assoc, BitVec.cast_eq]

end Sys2Proof

namespace Sys2Proof.Machine

/-! Mantissa, step and value (R92). -/

/-- The exponent of the quantization step of a form: its decoded value is its mantissa times `2 ^ stepExp` (R92). -/
def stepExp : Code → Int
  | .alpha c => -16 - (c.a1.toNat : Int) + c.a2.toNat + c.a3.toNat
  | .beta c => -17 - (c.b1.toNat : Int)
  | .gamma c => -17 - (c.g1.toNat : Int)
  | .delta c => -15 - (c.d1.toNat : Int)

/-- The decoded value of a form (R86 to R89). -/
def decodedValue (c : Code) : ℚ := mantissa c * 2 ^ stepExp c

/-- The pattern that the decode operation of a form answers (R86 to R89). -/
def decodedPattern : Code → Real64
  | .alpha c => decodeAlpha c
  | .beta c => decodeBeta c
  | .gamma c => decodeGamma c
  | .delta c => decodeDelta c

theorem response_decodeInstr (c : Code) : response c.decodeInstr = .decoded (decodedPattern c) := by
  cases c <;> rfl

theorem exec_decodeInstr (c : Code) (s : State) :
    exec c.decodeInstr s = .next { s with outcomes := s.outcomes ++ [.decoded (decodedPattern c)] } :=
  (exec_eq_next_iff _ s _).mpr (response_decodeInstr c)

/-- The four decode formulas are one, in mantissa and step (R92). -/
theorem decodedPattern_eq (c : Code) : decodedPattern c = enc64 (mantissa c) (stepExp c) := by
  cases c <;> rfl

theorem val64_decodedPattern (c : Code) : val64 (decodedPattern c) = some (decodedValue c) := by
  cases c with
  | alpha c => exact val64_decodeAlpha c
  | beta c => exact val64_decodeBeta c
  | gamma c => exact val64_decodeBeta ⟨c.g0, c.g1⟩
  | delta c => exact val64_decodeDelta c

theorem mantissa_lt (c : Code) : mantissa c < 2 ^ c.kind.mantissaBits := by
  cases c with
  | alpha c => exact c.a0.isLt
  | beta c => exact c.b0.isLt
  | gamma c => exact c.g0.isLt
  | delta c => exact c.d0.isLt

theorem stepExp_bounds (c : Code) :
    -(c.kind.mantissaBits : Int) - c.kind.maxDown ≤ stepExp c ∧ stepExp c ≤ c.kind.maxUp - c.kind.mantissaBits := by
  cases c with
  | alpha c =>
    have h1 := c.a1.isLt; have h2 := c.a2.isLt; have h3 := c.a3.isLt
    simp [stepExp, Code.kind]; omega
  | beta c =>
    have h1 := c.b1.isLt
    simp [stepExp, Code.kind]; omega
  | gamma c =>
    have h1 := c.g1.isLt
    simp [stepExp, Code.kind]; omega
  | delta c =>
    have h1 := c.d1.isLt
    simp [stepExp, Code.kind]; omega

/-- The widths keep every decoded value inside the range in which R16 calls `enc64` exact. -/
theorem kind_bounds (k : CoefKind) :
    1 ≤ k.mantissaBits ∧ k.mantissaBits ≤ 17 ∧ k.mantissaBits + k.maxDown ≤ 79 ∧ k.maxUp ≤ 22 := by
  cases k <;> decide

theorem two_le_two_pow_mantissaBits (k : CoefKind) : 2 ≤ 2 ^ k.mantissaBits := by
  cases k <;> decide

theorem decodedValue_pos {c : Code} (h : mantissa c ≠ 0) : 0 < decodedValue c :=
  mul_pos (Nat.cast_pos.mpr (Nat.pos_of_ne_zero h)) (two_zpow_pos _)

/-! The decoded pattern (R90). -/

theorem decodedPattern_of_mantissa_eq_zero {c : Code} (h : mantissa c = 0) : decodedPattern c = 0#64 := by
  rw [decodedPattern_eq, h, enc64_zero]

/-- The exponent field of a decoded pattern names the binade of the mantissa's leading bit, in the range of the kind. -/
theorem decodedPattern_normal {c : Code} (h : mantissa c ≠ 0) :
    class64 (decodedPattern c) = .normal ∧ sign64 (decodedPattern c) = false ∧
      1023 ≤ exp64 (decodedPattern c) + c.kind.mantissaBits + c.kind.maxDown ∧
      exp64 (decodedPattern c) ≤ 1022 + c.kind.maxUp := by
  have hlt := mantissa_lt c
  have hlog : (mantissa c).log2 < c.kind.mantissaBits := (Nat.log2_lt h).mpr hlt
  obtain ⟨hlow, hhigh⟩ := stepExp_bounds c
  obtain ⟨-, hbits, hdown, hup⟩ := kind_bounds c.kind
  have hm : mantissa c < 2 ^ 53 := hlt.trans_le (Nat.pow_le_pow_right (by norm_num) (by omega))
  obtain ⟨hclass, hsign, hexp, -⟩ := enc64_spec (n := stepExp c) h hm (by omega) (by omega)
  rw [decodedPattern_eq]
  exact ⟨hclass, hsign, by omega, by omega⟩

theorem decodedPattern_eq_zero_iff (c : Code) : decodedPattern c = 0#64 ↔ mantissa c = 0 := by
  refine ⟨fun hy => ?_, decodedPattern_of_mantissa_eq_zero⟩
  by_contra h
  obtain ⟨hclass, -⟩ := decodedPattern_normal h
  have hzero : class64 0#64 = .zero := by decide
  rw [hy, hzero] at hclass
  cases hclass

/-! The decoded pattern as an operand (R95). -/

theorem front_zero (k : CoefKind) : front k 0#64 = .invalidInput :=
  (front_eq_invalidInput_iff k _).mpr (.inl (by decide))

/-- A decoded pattern is accepted by the encoder of every kind, with the decoded value as its magnitude, unless the mantissa is 0. -/
theorem front_decodedPattern (k : CoefKind) {c : Code} (h : mantissa c ≠ 0) :
    ∃ q : Dyad, front k (decodedPattern c) = .ok q ∧ 0 < q.sig ∧ q.toRat = decodedValue c := by
  obtain ⟨hfront, hmag, hsig⟩ := front_of_pos k (val64_decodedPattern c) (decodedValue_pos h)
  exact ⟨_, hfront, hsig, hmag⟩

/-- Settles O29: a decode operation delivers its pattern, whatever the form. -/
theorem decodeNeverFails : Obligations.DecodeNeverFails :=
  fun c s => ⟨_, exec_decodeInstr c s⟩

/-- Settles O30: the word is that of `encode`, the value that of `val64_decodeAlpha`, and `a2` and `a3` enter by the step alone. -/
theorem decAlphaValue : Obligations.DecAlphaValue := by
  refine ⟨fun s c => ⟨?_, _, exec_decodeInstr (.alpha c) s, val64_decodeAlpha c, fun h0 => ?_⟩, fun s c d h0 h1 hsum => ?_⟩
  · rw [← encode_decAlpha, decode_encode]
  · exact decodedPattern_of_mantissa_eq_zero (c := .alpha c) (congrArg BitVec.toNat h0)
  · have hstep : stepExp (.alpha c) = stepExp (.alpha d) := by
      simp only [stepExp, h1]; omega
    have hpattern : decodedPattern (.alpha c) = decodedPattern (.alpha d) := by
      simp only [decodedPattern_eq, hstep, mantissa, h0]
    exact (exec_decodeInstr (.alpha c) s).trans (hpattern ▸ (exec_decodeInstr (.alpha d) s).symm)

/-- Settles O31: the words are those of `encode`; gamma's formula is beta's. -/
theorem decBetaGammaValue : Obligations.DecBetaGammaValue := by
  refine fun s c => ⟨?_, ?_, _, exec_decodeInstr (.beta c) s, exec_decodeInstr (.gamma ⟨c.b0, c.b1⟩) s, val64_decodeBeta c,
    fun h0 => ?_⟩
  · rw [← encode_decBeta, decode_encode]
  · exact (congrArg decode (encode_decGamma ⟨c.b0, c.b1⟩)).symm.trans (decode_encode _)
  · exact decodedPattern_of_mantissa_eq_zero (c := .beta c) (congrArg BitVec.toNat h0)

/-- Settles O32: the word is that of `encode`, the value that of `val64_decodeDelta`. -/
theorem decDeltaValue : Obligations.DecDeltaValue := by
  refine fun s c => ⟨?_, _, exec_decodeInstr (.delta c) s, val64_decodeDelta c, fun h0 => ?_⟩
  · rw [← encode_decDelta, decode_encode]
  · exact decodedPattern_of_mantissa_eq_zero (c := .delta c) (congrArg BitVec.toNat h0)

/-- Settles O33: the ranges of the exponent field are `decodedPattern_normal` with the numbers of each kind. -/
theorem decodedIsZeroOrPositiveNormal : Obligations.DecodedIsZeroOrPositiveNormal := by
  refine fun c s => ⟨_, exec_decodeInstr c s, decodedPattern_eq_zero_iff c, fun h => ?_⟩
  obtain ⟨hclass, hsign, hlow, hhigh⟩ := decodedPattern_normal h
  refine ⟨hclass, hsign, fun hk => ?_, fun hk => ?_, fun hk => ?_⟩
  · simp [hk] at hlow hhigh; omega
  · obtain hk | hk := hk <;> simp [hk] at hlow hhigh <;> omega
  · simp [hk] at hlow hhigh; omega

/-- Settles O39: a mantissa of 0 gives the pattern +0.0, any other a positive magnitude. -/
theorem decodedValueIsAcceptedUnlessZero : Obligations.DecodedValueIsAcceptedUnlessZero := by
  refine fun c s => ⟨_, exec_decodeInstr c s, fun t => ⟨fun h => ?_, fun h => ?_⟩⟩
  · rw [decodedPattern_of_mantissa_eq_zero h]
    exact exec_of_front_invalidInput (front_zero _) t
  · obtain ⟨q, hfront, -, -⟩ := front_decodedPattern c.kind h
    exact ⟨_, kind_encodedForm params.tie q c.kind, exec_of_front_ok hfront t⟩

end Sys2Proof.Machine
end

section
/-! Decode after encode (R93): the decoded values of the forms of R72 to R74, and their distance from the operand. -/

namespace Sys2Proof.Machine

/-! The encode operations of all kinds as one function (R65 to R69). -/

/-- The outcome of the encode operation of a kind. -/
def encodeCode (tie : Tie) (k : CoefKind) (x : Real64) : OpOutcome Code := (front k x).map (encodedForm tie · k)

section Encode

variable {tie : Tie} {k : CoefKind} {x : Real64}

/-- An outcome is one result. -/
theorem ok_unique {α : Type} {o : OpOutcome α} {c d : α} (hc : o = .ok c) (hd : o = .ok d) : c = d :=
  OpOutcome.ok.inj (hc.symm.trans hd)

theorem encodeCode_eq_ok_iff {c : Code} :
    encodeCode tie k x = .ok c ↔ ∃ q, front k x = .ok q ∧ encodedForm tie q k = c := by
  rw [encodeCode]
  cases front k x <;> simp [OpOutcome.map]

theorem encodeAlpha_eq_ok_iff {c : AlphaCode} :
    encodeAlpha tie x = .ok c ↔ encodeCode tie .alpha x = .ok (.alpha c) := by
  rw [encodeAlpha, encodeCode]
  cases front .alpha x <;> simp [OpOutcome.map, encodedForm]

theorem encodeBeta_eq_ok_iff {c : BetaCode} : encodeBeta tie x = .ok c ↔ encodeCode tie .beta x = .ok (.beta c) := by
  rw [encodeBeta, encodeCode]
  cases front .beta x <;> simp [OpOutcome.map, encodedForm]

theorem encodeGamma_eq_ok_iff {c : GammaCode} :
    encodeGamma tie x = .ok c ↔ encodeCode tie .gamma x = .ok (.gamma c) := by
  rw [encodeGamma, encodeCode]
  cases front .gamma x <;> simp [OpOutcome.map, encodedForm]

theorem encodeDelta_eq_ok_iff {c : DeltaCode} :
    encodeDelta tie x = .ok c ↔ encodeCode tie .delta x = .ok (.delta c) := by
  rw [encodeDelta, encodeCode]
  cases front .delta x <;> simp [OpOutcome.map, encodedForm]

theorem encodedForm_canonical (tie : Tie) {q : Dyad} (h : 0 < q.sig) (k : CoefKind) :
    (encodedForm tie q k).canonical = true := by
  cases k with
  | alpha => exact alphaFields_canonical tie h
  | beta => exact betaFields_canonical tie h
  | gamma => exact gammaFields_canonical tie h
  | delta => exact deltaFields_canonical tie h

theorem canonical_of_encodeCode {c : Code} (h : encodeCode tie k x = .ok c) : c.canonical = true := by
  obtain ⟨q, hfront, rfl⟩ := encodeCode_eq_ok_iff.mp h
  obtain ⟨-, -, -, hsig⟩ := front_ok hfront
  exact encodedForm_canonical tie hsig k

/-- The decode of an encode result is positive (R93). -/
theorem decodedValue_pos_of_encodeCode {c : Code} (h : encodeCode tie k x = .ok c) : 0 < decodedValue c :=
  decodedValue_pos (mantissa_ne_zero_of_canonical (canonical_of_encodeCode h))

end Encode

/-! The forms of R72 to R74 and their values. -/

/-- The form with the largest mantissa and no upward exponent (cases C and D of R72, A and D of R73 and R74). -/
def saturatedForm : CoefKind → Nat → Code
  | .alpha, k => .alpha ⟨65535, BitVec.ofNat 6 k, 0, 0⟩
  | .beta, k => .beta ⟨131071, BitVec.ofNat 5 k⟩
  | .gamma, k => .gamma ⟨131071, BitVec.ofNat 5 k⟩
  | .delta, k => .delta ⟨32767, BitVec.ofNat 5 k⟩

/-- The form with the largest downward exponent (case E of R72 to R74). -/
def lowForm : CoefKind → Int → Code
  | .alpha, m => .alpha ⟨BitVec.ofInt 16 m, 63, 0, 0⟩
  | .beta, m => .beta ⟨BitVec.ofInt 17 m, 31⟩
  | .gamma, m => .gamma ⟨BitVec.ofInt 17 m, 31⟩
  | .delta, m => .delta ⟨BitVec.ofInt 15 m, 31⟩

/-- The alpha form `(m, 0, split k)` (cases A and B of R72). -/
def upForm (m k : Nat) : AlphaCode :=
  ⟨BitVec.ofNat 16 m, 0, BitVec.ofNat 3 (if 8 ≤ k then 7 else k), BitVec.ofNat 4 (if 8 ≤ k then k - 7 else 0)⟩

theorem kind_saturatedForm (kind : CoefKind) (k : Nat) : (saturatedForm kind k).kind = kind := by
  cases kind <;> rfl

theorem mantissa_saturatedForm (kind : CoefKind) (k : Nat) : mantissa (saturatedForm kind k) = 2 ^ kind.mantissaBits - 1 := by
  cases kind <;> rfl

theorem mantissa_saturatedForm_ne_zero (kind : CoefKind) (k : Nat) : mantissa (saturatedForm kind k) ≠ 0 := by
  have := two_le_two_pow_mantissaBits kind
  rw [mantissa_saturatedForm]; omega

theorem stepExp_saturatedForm {kind : CoefKind} {k : Nat} (hk : k ≤ kind.maxDown) :
    stepExp (saturatedForm kind k) = -(kind.mantissaBits : Int) - k := by
  cases kind <;> simp [stepExp, saturatedForm] at hk ⊢ <;> omega

/-- The largest mantissa of `b` bits is one step short of the power of two above it. -/
theorem top_mul_step (b : Nat) (k : Int) :
    ((2 ^ b - 1 : Nat) : ℚ) * 2 ^ (-(b : Int) - k) = 2 ^ (-k) - 2 ^ (-(b : Int) - k) := by
  rw [Nat.cast_sub Nat.one_le_two_pow, Nat.cast_one, sub_mul, one_mul, natCast_two_pow_mul]
  congr 2
  omega

theorem decodedValue_saturatedForm {kind : CoefKind} {k : Nat} (hk : k ≤ kind.maxDown) :
    decodedValue (saturatedForm kind k) = 2 ^ (-(k : Int)) - 2 ^ (-(kind.mantissaBits : Int) - k) := by
  rw [decodedValue, mantissa_saturatedForm, stepExp_saturatedForm hk, top_mul_step]

theorem decodedValue_lowForm {kind : CoefKind} {m : Int} {hi : Nat} (hhi : hi + 1 = 2 ^ kind.mantissaBits) (h₀ : 0 ≤ m)
    (h : m ≤ hi) : decodedValue (lowForm kind m) = m * 2 ^ (-((kind.mantissaBits + kind.maxDown : Nat) : Int)) := by
  have hlt : m < 2 ^ kind.mantissaBits := by
    have : m < ((hi + 1 : Nat) : Int) := by omega
    rw [hhi] at this
    exact_mod_cast this
  have hmantissa : (mantissa (lowForm kind m) : Int) = m := by
    cases kind <;> exact toNat_ofInt_of_lt h₀ hlt
  have hstep : stepExp (lowForm kind m) = -((kind.mantissaBits + kind.maxDown : Nat) : Int) := by
    cases kind <;> rfl
  rw [decodedValue, hstep, ← Int.cast_natCast, hmantissa]

theorem mantissa_upForm {m : Nat} (hm : m < 65536) (k : Nat) : mantissa (.alpha (upForm m k)) = m :=
  Nat.mod_eq_of_lt hm

theorem decodedValue_upForm {m k : Nat} (hm : m < 65536) (hk : k ≤ 22) :
    decodedValue (.alpha (upForm m k)) = m * 2 ^ ((k : Int) - 16) := by
  have hstep : stepExp (.alpha (upForm m k)) = k - 16 := by
    simp only [stepExp, upForm, BitVec.toNat_ofNat, BitVec.ofNat_eq_ofNat]
    split_ifs <;> omega
  rw [decodedValue, mantissa_upForm hm, hstep]

/-! Distances from the operand (R93). -/

/-- The value a step `s` short of `2^(-k)` lies at least `s` below the operand, and less than `2^(-k) + s` (case D of R72). -/
theorem IsNclog2.sub_saturated {q : ℚ} {k : Int} (h : IsNclog2 q k) (s : ℚ) :
    s ≤ q - (2 ^ (-k) - s) ∧ q - (2 ^ (-k) - s) < 2 ^ (-k) + s ∧ (q - (2 ^ (-k) - s) = s ↔ q = 2 ^ (-k)) := by
  obtain ⟨hlow, hhigh⟩ := h
  have hdouble : (2 : ℚ) ^ (1 - k) = 2 * 2 ^ (-k) := by
    rw [sub_eq_add_neg, two_zpow_add, zpow_one]
  exact ⟨by linarith, by linarith, fun he => by linarith, fun he => by linarith⟩

/-- A rounded and clamped value is less than 1 away from a value of the mantissa's range. -/
theorem IsRnd.abs_sub_clamp_lt {tie : Tie} {q : ℚ} {r hi : Nat} (h : IsRnd tie q r) (hpos : 0 < q) (hlt : q < hi + 1)
    (hhi : 1 ≤ hi) : |q - (clamp r 1 hi : Int)| < 1 := by
  have hle : r ≤ hi + 1 := h.le_of_le (by push_cast; exact hlt.le)
  obtain ⟨hlow, hhigh⟩ := abs_le.mp h.1
  rw [abs_lt]
  obtain rfl | hr | rfl : r = 0 ∨ (1 ≤ r ∧ r ≤ hi) ∨ r = hi + 1 := by omega
  · rw [clamp_of_le (by omega) (by omega)]
    push_cast at hlow hhigh ⊢
    constructor <;> linarith
  · rw [clamp_of_mem (by omega) (by omega)]
    push_cast
    constructor <;> linarith
  · rw [clamp_of_ge (by omega) (by omega)]
    push_cast at hlow hhigh ⊢
    constructor <;> linarith

/-- Scaling by a step `2^(-n)` scales the distance. -/
theorem abs_sub_mul_two_zpow_neg (q m : ℚ) (n : Nat) :
    |q - m * 2 ^ (-(n : Int))| = |q * 2 ^ n - m| * 2 ^ (-(n : Int)) := by
  have hp := two_zpow_pos (-(n : Int))
  have hcancel : (2 : ℚ) ^ n * 2 ^ (-(n : Int)) = 1 := by
    rw [← zpow_natCast, ← two_zpow_add, add_neg_cancel, zpow_zero]
  rw [← abs_of_pos hp, ← abs_mul, abs_of_pos hp, sub_mul, mul_assoc, hcancel, mul_one]

/-- In the lowest range the decoded value is less than a step away from the operand (case E of R72 to R74). -/
theorem decodedValue_lowForm_of_isRnd {kind : CoefKind} {tie : Tie} {q : ℚ} {n r hi : Nat}
    (hn : kind.mantissaBits + kind.maxDown = n) (hhi : hi + 1 = 2 ^ kind.mantissaBits) (hr : IsRnd tie (q * 2 ^ n) r)
    (hpos : 0 < q * 2 ^ n) (hlt : q * 2 ^ n < (hi : ℚ) + 1) :
    decodedValue (lowForm kind (clamp r 1 hi)) = (clamp r 1 hi : Int) * 2 ^ (-(n : Int)) ∧
      |q - decodedValue (lowForm kind (clamp r 1 hi))| < 2 ^ (-(n : Int)) := by
  have hbits := two_le_two_pow_mantissaBits kind
  have hlower : 1 ≤ clamp r 1 hi := clamp_lower (by omega)
  have hupper : clamp r 1 hi ≤ hi := clamp_upper (by omega)
  have hvalue := decodedValue_lowForm hhi (zero_le_one.trans hlower) hupper
  rw [hn] at hvalue
  refine ⟨hvalue, ?_⟩
  rw [hvalue, abs_sub_mul_two_zpow_neg]
  exact mul_lt_of_lt_one_left (two_zpow_pos _) (hr.abs_sub_clamp_lt hpos hlt (by omega))

end Sys2Proof.Machine
end

section
/-! What decode after encode returns in each range of the operand (R93), from the closed forms of R72 to R74. -/

namespace Sys2Proof.Machine

/-- In case B of R72 the decoded value is at most half a step away, unless the rounding carries out of the mantissa. -/
theorem upForm_distance {q v : ℚ} {k r : Nat} (hhigh : q * (2 : ℚ) ^ (16 - (k : Int)) ≤ 65536)
    (hr : IsRnd .even (q * (2 : ℚ) ^ (16 - (k : Int))) r) (hv : v = ((min r 65535 : Nat) : ℚ) * (2 : ℚ) ^ ((k : Int) - 16)) :
    (r ≠ 65536 → |q - v| ≤ (2 : ℚ) ^ ((k : Int) - 17)) ∧
      (r = 65536 → (2 : ℚ) ^ ((k : Int) - 17) ≤ q - v ∧ q - v ≤ (2 : ℚ) ^ ((k : Int) - 16)) := by
  have hle : r ≤ 65536 := hr.le_of_le (by exact_mod_cast hhigh)
  have hp := two_zpow_pos ((k : Int) - 16)
  have hhalf : (2 : ℚ) ^ ((k : Int) - 17) = 1 / 2 * 2 ^ ((k : Int) - 16) := by
    rw [show (k : Int) - 17 = -1 + (k - 16) by ring, two_zpow_add]; norm_num
  have hcancel : (2 : ℚ) ^ (16 - (k : Int)) * 2 ^ ((k : Int) - 16) = 1 := by
    rw [← two_zpow_add, ← zpow_zero (2 : ℚ)]; congr 1; ring
  have hscaled : q - v = (q * (2 : ℚ) ^ (16 - (k : Int)) - (min r 65535 : Nat)) * 2 ^ ((k : Int) - 16) := by
    rw [hv, sub_mul, mul_assoc, hcancel, mul_one]
  rw [hscaled, hhalf]
  refine ⟨fun hne => ?_, fun heq => ?_⟩
  · rw [min_eq_left (by omega), abs_mul, abs_of_pos hp, abs_sub_comm]
    exact mul_le_mul_of_nonneg_right hr.1 hp.le
  · subst heq
    obtain ⟨-, hnear⟩ := abs_le.mp hr.1
    push_cast at hnear ⊢
    refine ⟨mul_le_mul_of_nonneg_right ?_ hp.le, mul_le_of_le_one_left hp.le ?_⟩ <;> norm_num <;> linarith

/-- Settles O35: the closed form of R72 gives the form in each range, and the form its value. -/
theorem alphaDecodeAfterEncode : Obligations.AlphaDecodeAfterEncode := by
  intro x q c hq hpos henc
  obtain ⟨hA, hB, hC, hD, hE⟩ := alphaClosedForm .even x q hq hpos
  refine ⟨decodedValue (.alpha c), val64_decodeAlpha c, decodedValue_pos_of_encodeCode (encodeAlpha_eq_ok_iff.mp henc),
    fun hgt => ?_, fun hgt hle => ?_, fun hone => ?_, fun hlow hlt => ?_, fun hlt => ?_⟩
  · obtain rfl : c = upForm 65535 22 := ok_unique henc (hA hgt)
    rw [decodedValue_upForm (by norm_num) le_rfl]
    norm_num
  · obtain ⟨k, r, -, hk, hclog, -, hhigh, hr, -, -, hform⟩ := hB hgt hle
    obtain rfl : c = upForm (min r 65535) k := ok_unique henc hform
    have hvalue := decodedValue_upForm (m := min r 65535) (by omega) hk
    exact ⟨k, r, hclog, hr, hvalue, upForm_distance hhigh hr hvalue⟩
  · have hc : .alpha c = saturatedForm .alpha 0 := congrArg Code.alpha (ok_unique henc (hC hone))
    rw [hc, decodedValue_saturatedForm (by norm_num)]
    norm_num
  · obtain ⟨k, -, hk, hnclog, -, -, hform⟩ := hD hlow hlt
    have hc : .alpha c = saturatedForm .alpha k := congrArg Code.alpha (ok_unique henc hform)
    rw [hc, decodedValue_saturatedForm hk]
    exact ⟨k, hnclog, rfl, hnclog.sub_saturated _⟩
  · obtain ⟨r, hscaled, htop, hr, hform⟩ := hE hlt
    have hc : .alpha c = lowForm .alpha (clamp r 1 65535) := congrArg Code.alpha (ok_unique henc hform)
    obtain ⟨hvalue, hdist⟩ := decodedValue_lowForm_of_isRnd (kind := .alpha) (n := 79) (hi := 65535) rfl rfl hr hscaled
      (by norm_num; exact htop)
    rw [hc]
    exact ⟨⟨r, hr, hvalue⟩, hdist⟩

/-- Below 1, the decoded value is below the operand. -/
theorem decodedValue_saturatedForm_lt {kind : CoefKind} {k : Nat} (hk : k ≤ kind.maxDown) {q : ℚ} (h : IsNclog2 q k) :
    decodedValue (saturatedForm kind k) < q := by
  rw [decodedValue_saturatedForm hk]
  exact (sub_lt_self _ (two_zpow_pos _)).trans_le h.1

/-- Settles O36: the closed forms of R73 and R74 give the forms in each range, and the forms their values. -/
theorem betaGammaDeltaDecodeAfterEncode : Obligations.BetaGammaDeltaDecodeAfterEncode := by
  refine ⟨fun x u c hu hne henc => ⟨?_, rfl, decodedValue (.beta c), val64_decodeBeta c,
    decodedValue_pos_of_encodeCode (encodeBeta_eq_ok_iff.mp henc), ?_⟩,
    fun x q c hq hpos henc => ⟨decodedValue (.delta c), val64_decodeDelta c,
      decodedValue_pos_of_encodeCode (encodeDelta_eq_ok_iff.mp henc), ?_⟩⟩
  · rw [encodeGamma_eq, henc]; rfl
  · obtain ⟨hA, hD, hE⟩ := betaGammaClosedForm .even x u hu hne
    refine ⟨fun hone => ?_, fun hlow hlt => ?_, fun hlt => ?_⟩
    · obtain ⟨-, hform, -⟩ := hA hone
      have hc : .beta c = saturatedForm .beta 0 := congrArg Code.beta (ok_unique henc hform)
      rw [hc, decodedValue_saturatedForm (by norm_num)]
      norm_num
    · obtain ⟨k, -, hk, hnclog, -, hform, -⟩ := hD hlow hlt
      have hc : .beta c = saturatedForm .beta k := congrArg Code.beta (ok_unique henc hform)
      rw [hc]
      exact ⟨k, hnclog, decodedValue_saturatedForm_lt hk hnclog, decodedValue_saturatedForm hk⟩
    · obtain ⟨r, hscaled, htop, hr, hform, -⟩ := hE hlt
      have hc : .beta c = lowForm .beta (clamp r 1 131071) := congrArg Code.beta (ok_unique henc hform)
      rw [hc]
      exact (decodedValue_lowForm_of_isRnd (kind := .beta) (n := 48) (hi := 131071) rfl rfl hr hscaled
        (by norm_num; exact htop)).2
  · obtain ⟨hA, hD, hE⟩ := deltaClosedForm .even x q hq hpos
    refine ⟨fun hone => ?_, fun hlow hlt => ?_, fun hlt => ?_⟩
    · have hc : .delta c = saturatedForm .delta 0 := congrArg Code.delta (ok_unique henc (hA hone))
      rw [hc, decodedValue_saturatedForm (by norm_num)]
      norm_num
    · obtain ⟨k, -, hk, hnclog, hform⟩ := hD hlow hlt
      have hc : .delta c = saturatedForm .delta k := congrArg Code.delta (ok_unique henc hform)
      rw [hc]
      exact ⟨k, hnclog, decodedValue_saturatedForm_lt hk hnclog, decodedValue_saturatedForm hk⟩
    · obtain ⟨r, hscaled, htop, hr, hform⟩ := hE hlt
      have hc : .delta c = lowForm .delta (clamp r 1 32767) := congrArg Code.delta (ok_unique henc hform)
      rw [hc]
      exact (decodedValue_lowForm_of_isRnd (kind := .delta) (n := 46) (hi := 32767) rfl rfl hr hscaled
        (by norm_num; exact htop)).2

theorem val64_of_seven_eighths : val64 0x3FEC000000000000#64 = some (7 / 8) := by
  have hclass : class64 0x3FEC000000000000#64 = .normal := by decide
  have hsign : sign64 0x3FEC000000000000#64 = false := by decide
  have hmag : mag64 0x3FEC000000000000#64 = ⟨7 * 2 ^ 50, -53⟩ := by decide
  rw [val64_of_finiteNonzero (.inl hclass), hsign, hmag]
  norm_num [Dyad.toRat]

/-- Settles O41: 7/8 is encoded as 1/2 is, and decodes to a step below 1/2. -/
theorem accuracyPropertyFails : Obligations.AccuracyPropertyFails := by
  have hform : encodeAlpha .even 0x3FEC000000000000#64 = .ok ⟨65535, 1, 0, 0⟩ := by decide
  have hvalue := val64_decodedPattern (saturatedForm .alpha 1)
  have hstep := stepExp_saturatedForm (kind := .alpha) (k := 1) (by norm_num)
  rw [decodedValue_saturatedForm (by norm_num)] at hvalue
  refine ⟨_, 7 / 8, _, _, val64_of_seven_eighths, by norm_num, by norm_num, hform, hvalue, ?_, ?_⟩
  · norm_num [abs_of_pos]
  · show (2 : ℚ) ^ stepExp (saturatedForm .alpha 1) < _
    rw [hstep]
    norm_num [abs_of_pos]

end Sys2Proof.Machine
end

section
/-! Encode after decode (R94): a form whose decoded value is a step short of a power of two moves on to the next exponent, one whose value
is a power of two to the exponent before, and every other canonical form comes back. -/

namespace Sys2Proof.Machine

/-- Encoding the decoded value of `c` by the encode operation of its kind gives `d`. -/
def ReencodesTo (tie : Tie) (c d : Code) : Prop := encodeCode tie c.kind (decodedPattern c) = .ok d

theorem ReencodesTo.unique {tie : Tie} {c d d' : Code} (h : ReencodesTo tie c d) (h' : ReencodesTo tie c d') : d = d' :=
  ok_unique h h'

theorem ReencodesTo.canonical {tie : Tie} {c d : Code} (h : ReencodesTo tie c d) : d.canonical = true :=
  canonical_of_encodeCode h

/-- A form re-encodes to the form that its decoded value is encoded as. -/
theorem reencodesTo_of_value {tie : Tie} {c d : Code} (hm : mantissa c ≠ 0)
    (h : ∀ q : Dyad, 0 < q.sig → q.toRat = decodedValue c → encodedForm tie q c.kind = d) : ReencodesTo tie c d := by
  obtain ⟨q, hfront, hsig, hq⟩ := front_decodedPattern c.kind hm
  exact encodeCode_eq_ok_iff.mpr ⟨q, hfront, h q hsig hq⟩

/-- A form that encodes its own decoded value comes back. -/
theorem reencodesTo_self_of_encodesTo (tie : Tie) {c : Code} (h : EncodesTo (mantissa c) (stepExp c) c) :
    ReencodesTo tie c c := by
  obtain ⟨hm, -, -, -, henc⟩ := h
  exact reencodesTo_of_value hm (henc tie)

/-! Saturated forms. -/

theorem encodedForm_of_isNclog2 {tie : Tie} {kind : CoefKind} {q : Dyad} (h : 0 < q.sig) {k : Nat} (hk : IsNclog2 q.toRat k)
    (hq : q.toRat ≤ 1) (hle : k ≤ kind.maxDown) : encodedForm tie q kind = saturatedForm kind k := by
  have hceil := ((isNclog2_iff h k).mp hk).ge
  cases kind with
  | alpha => exact congrArg Code.alpha (alphaFields_of_isNclog2 h hk hq hle)
  | beta => exact congrArg Code.beta (betaFields_of_nclog2_le h (downExp_of_isNclog2 h hk hle) hceil)
  | gamma =>
    have hbeta := betaFields_of_nclog2_le (tie := tie) h (downExp_of_isNclog2 h hk hle) hceil
    rw [encodedForm, gammaFields_eq, hbeta, saturatedForm]
  | delta => exact congrArg Code.delta (deltaFields_of_nclog2_le h (downExp_of_isNclog2 h hk hle) hceil)

/-- A step short of a power of two lies in the binade below it. -/
theorem isNclog2_sub_step {b : Nat} (hb : 1 ≤ b) (k : Nat) :
    IsNclog2 ((2 : ℚ) ^ (-(k : Int)) - 2 ^ (-(b : Int) - k)) ((k + 1 : Nat) : Int) := by
  have hdouble : (2 : ℚ) ^ (-(k : Int)) = 2 * 2 ^ (-((k + 1 : Nat) : Int)) := by
    rw [← zpow_one_add₀ two_ne_zero]; congr 1; push_cast; ring
  have hstep : (2 : ℚ) ^ (-(b : Int) - k) ≤ 2 ^ (-((k + 1 : Nat) : Int)) := two_zpow_le.mpr (by omega)
  refine ⟨by linarith, ?_⟩
  calc (2 : ℚ) ^ (-(k : Int)) - 2 ^ (-(b : Int) - k) < 2 ^ (-(k : Int)) := sub_lt_self _ (two_zpow_pos _)
    _ = 2 ^ (1 - ((k + 1 : Nat) : Int)) := by congr 1; push_cast; ring

/-- A saturated form below the exponent's ceiling re-encodes to the next exponent. -/
theorem saturatedForm_drifts (tie : Tie) {kind : CoefKind} {k : Nat} (hk : k < kind.maxDown) :
    ReencodesTo tie (saturatedForm kind k) (saturatedForm kind (k + 1)) := by
  obtain ⟨hbits, -⟩ := kind_bounds kind
  refine reencodesTo_of_value (mantissa_saturatedForm_ne_zero kind k) fun q hsig hq => ?_
  rw [decodedValue_saturatedForm hk.le] at hq
  have hceil : IsNclog2 q.toRat (k + 1 : Nat) := hq ▸ isNclog2_sub_step hbits k
  have hbelow : q.toRat < 1 := by
    rw [toRat_lt_one_iff hsig, ← (isNclog2_iff hsig _).mp hceil]; omega
  rw [kind_saturatedForm]
  exact encodedForm_of_isNclog2 hsig hceil hbelow.le hk

/-- A saturated form that comes back has its exponent at the ceiling. -/
theorem eq_maxDown_of_reencodesTo_self {tie : Tie} {kind : CoefKind} {k : Nat} (hk : k ≤ kind.maxDown)
    (h : ReencodesTo tie (saturatedForm kind k) (saturatedForm kind k)) : k = kind.maxDown := by
  by_contra hne
  have hlt : k < kind.maxDown := lt_of_le_of_ne hk hne
  have hstep := congrArg stepExp (h.unique (saturatedForm_drifts tie hlt))
  rw [stepExp_saturatedForm hk, stepExp_saturatedForm hlt] at hstep
  omega

/-- Settles O37: the saturated forms of each kind drift. -/
theorem reencodingDrifts : Obligations.ReencodingDrifts := by
  refine ⟨fun k hk => ?_, fun k hk => ?_, fun k hk => ?_, fun k hk => ?_⟩
  · exact encodeAlpha_eq_ok_iff.mpr (saturatedForm_drifts .even (kind := .alpha) (Nat.lt_succ_of_le hk))
  · exact encodeBeta_eq_ok_iff.mpr (saturatedForm_drifts .even (kind := .beta) (Nat.lt_succ_of_le hk))
  · exact encodeGamma_eq_ok_iff.mpr (saturatedForm_drifts .even (kind := .gamma) (Nat.lt_succ_of_le hk))
  · exact encodeDelta_eq_ok_iff.mpr (saturatedForm_drifts .even (kind := .delta) (Nat.lt_succ_of_le hk))

/-! Forms of alpha with an upward exponent. -/

theorem eq_upForm {c : AlphaCode} (h1 : c.a1.toNat = 0) (h3 : c.a3.toNat = 0 ∨ c.a2.toNat = 7) :
    c = upForm c.a0.toNat (c.a2.toNat + c.a3.toNat) := by
  have hlt2 := c.a2.isLt; have hlt3 := c.a3.isLt
  refine AlphaCode.eq_of_toNat (by simp [upForm]) h1 ?_ ?_
  · rw [upForm, BitVec.toNat_ofNat]; split <;> omega
  · rw [upForm, BitVec.toNat_ofNat]; split <;> omega

/-- Above the least mantissa with its leading bit set, the exponent of the binade is that of the form. -/
theorem isClog2_field_mul {m : Nat} (hlow : 32768 < m) (hhigh : m ≤ 65536) (k : Int) :
    IsClog2 ((m : ℚ) * 2 ^ (k - 16)) k := by
  have hp := two_zpow_pos (k - 16)
  constructor
  · calc (2 : ℚ) ^ (k - 1) = ((2 ^ 15 : Nat) : ℚ) * 2 ^ (k - 16) := by rw [natCast_two_pow_mul]; congr 1; omega
      _ < _ := mul_lt_mul_of_pos_right (Nat.cast_lt.mpr hlow) hp
  · calc (m : ℚ) * 2 ^ (k - 16) ≤ ((2 ^ 16 : Nat) : ℚ) * 2 ^ (k - 16) :=
          mul_le_mul_of_nonneg_right (Nat.cast_le.mpr hhigh) hp.le
      _ = 2 ^ k := by rw [natCast_two_pow_mul]; congr 1; omega

/-- A mantissa scaled up and down again is rounded to itself. -/
theorem isRnd_field_mul (tie : Tie) (m : Nat) (k : Int) : IsRnd tie ((m : ℚ) * 2 ^ (k - 16) * 2 ^ (16 - k)) m := by
  rw [mul_assoc, ← two_zpow_add, show k - 16 + (16 - k) = 0 by ring, zpow_zero, mul_one]
  exact isRnd_natCast tie m

theorem upForm_comes_back (tie : Tie) {m k : Nat} (hlow : 32768 < m) (hhigh : m < 65536) (hpos : 1 ≤ k) (hk : k ≤ 22) :
    ReencodesTo tie (.alpha (upForm m k)) (.alpha (upForm m k)) := by
  have hm : mantissa (.alpha (upForm m k)) ≠ 0 := by rw [mantissa_upForm hhigh]; omega
  refine reencodesTo_of_value hm fun q hsig hq => congrArg Code.alpha ?_
  rw [decodedValue_upForm hhigh hk] at hq
  rw [alphaFields_of_isClog2 hsig (hq ▸ isClog2_field_mul hlow hhigh.le k) hpos hk (hq ▸ isRnd_field_mul tie m k),
    min_eq_left (by omega), upForm]

/-- The value `2^j` is encoded with the largest mantissa and the exponent `j`. -/
theorem alphaFields_of_two_pow {tie : Tie} {q : Dyad} (h : 0 < q.sig) {j : Nat} (hj : j ≤ 22) (hq : q.toRat = 2 ^ (j : Int)) :
    alphaFields tie q = upForm 65535 j := by
  obtain rfl | hpos := Nat.eq_zero_or_pos j
  · have hone : q.toRat = 1 := hq.trans (zpow_zero 2)
    exact alphaFields_of_isNclog2 (k := 0) h (hone ▸ isNclog2_two_zpow 0) hone.le (by norm_num)
  · have hr : IsRnd tie (q.toRat * 2 ^ (16 - (j : Int))) 65536 := by
      rw [hq, ← two_zpow_add, add_sub_cancel]
      exact_mod_cast isRnd_natCast tie 65536
    exact alphaFields_of_isClog2 h (hq ▸ isClog2_two_zpow j) hpos hj hr

theorem upForm_drifts (tie : Tie) {j : Nat} (hj : j < 22) :
    ReencodesTo tie (.alpha (upForm 32768 (j + 1))) (.alpha (upForm 65535 j)) := by
  have hm : mantissa (.alpha (upForm 32768 (j + 1))) ≠ 0 := by rw [mantissa_upForm] <;> norm_num
  refine reencodesTo_of_value hm fun q hsig hq => congrArg Code.alpha (alphaFields_of_two_pow hsig hj.le ?_)
  rw [hq, decodedValue_upForm (by norm_num) hj]
  exact (natCast_two_pow_mul 15 _).trans (by congr 1; push_cast; ring)

theorem not_reencodesTo_self_upForm {tie : Tie} {j : Nat} (hj : j < 22) :
    ¬ReencodesTo tie (.alpha (upForm 32768 (j + 1))) (.alpha (upForm 32768 (j + 1))) := by
  intro h
  have hm := congrArg mantissa (h.unique (upForm_drifts tie hj))
  rw [mantissa_upForm (by norm_num), mantissa_upForm (by norm_num)] at hm
  norm_num at hm

/-! The fixed points. -/

theorem encodeAlpha_decodeAlpha_iff (tie : Tie) (c : AlphaCode) : encodeAlpha tie (decodeAlpha c) = .ok c ↔
    (c.a1.toNat = 63 ∧ c.a2.toNat = 0 ∧ c.a3.toNat = 0 ∧ c.a0.toNat ≠ 0) ∨
    (c.a1.toNat = 0 ∧ 32769 ≤ c.a0.toNat ∧ c.a2.toNat ≠ 0 ∧ (c.a3.toNat = 0 ∨ c.a2.toNat = 7)) := by
  have hlt0 := c.a0.isLt; have hlt1 := c.a1.isLt; have hlt2 := c.a2.isLt; have hlt3 := c.a3.isLt
  refine Iff.trans (b := ReencodesTo tie (.alpha c) (.alpha c)) encodeAlpha_eq_ok_iff ⟨?_, ?_⟩
  · intro h
    obtain ⟨h0, h2, h3⟩ | hlow | ⟨h1, h0, h2, h3⟩ := c.canonical_iff.mp h.canonical
    · have hc : .alpha c = saturatedForm .alpha c.a1.toNat :=
        congrArg Code.alpha (AlphaCode.eq_of_toNat h0 (by simp) h2 h3)
      rw [hc] at h
      have hceil : c.a1.toNat = 63 := eq_maxDown_of_reencodesTo_self (by simp only [CoefKind.maxDown]; omega) h
      exact .inl (by omega)
    · exact .inl hlow
    · refine .inr ⟨h1, lt_of_le_of_ne h0 fun heq => ?_, h2, h3⟩
      obtain ⟨j, hj⟩ := Nat.exists_eq_add_one_of_ne_zero (by omega : c.a2.toNat + c.a3.toNat ≠ 0)
      have hc := eq_upForm h1 h3
      rw [← heq, hj] at hc
      exact not_reencodesTo_self_upForm (by omega) (hc ▸ h)
  · rintro (⟨h1, h2, h3, h0⟩ | ⟨h1, h0, h2, h3⟩)
    · have hstep : stepExp (.alpha c) = -79 := by simp only [stepExp]; omega
      exact reencodesTo_self_of_encodesTo tie (hstep ▸ encodesTo_alpha_low h0 h1 h2 h3)
    · rw [eq_upForm h1 h3]
      exact upForm_comes_back tie h0 hlt0 (by omega) (by omega)

theorem encodeBeta_decodeBeta_iff (tie : Tie) (c : BetaCode) :
    encodeBeta tie (decodeBeta c) = .ok c ↔ c.b1.toNat = 31 ∧ c.b0.toNat ≠ 0 := by
  have hlt := c.b1.isLt
  refine Iff.trans (b := ReencodesTo tie (.beta c) (.beta c)) encodeBeta_eq_ok_iff ⟨?_, ?_⟩
  · intro h
    obtain h0 | hlow := c.canonical_iff.mp h.canonical
    · have hc : .beta c = saturatedForm .beta c.b1.toNat := congrArg Code.beta (BetaCode.eq_of_toNat h0 (by simp))
      rw [hc] at h
      have hceil : c.b1.toNat = 31 := eq_maxDown_of_reencodesTo_self (by simp only [CoefKind.maxDown]; omega) h
      omega
    · exact hlow
  · rintro ⟨h1, h0⟩
    have hstep : stepExp (.beta c) = -48 := by simp only [stepExp]; omega
    exact reencodesTo_self_of_encodesTo tie (hstep ▸ encodesTo_beta_low h0 h1)

theorem encodeGamma_decodeGamma_iff (tie : Tie) (c : GammaCode) :
    encodeGamma tie (decodeGamma c) = .ok c ↔ c.g1.toNat = 31 ∧ c.g0.toNat ≠ 0 := by
  rw [← encodeBeta_decodeBeta_iff tie ⟨c.g0, c.g1⟩, encodeGamma_eq, decodeGamma_eq]
  obtain ⟨g0, g1⟩ := c
  cases encodeBeta tie (decodeBeta ⟨g0, g1⟩) with
  | ok d => cases d; simp [OpOutcome.map]
  | invalidInput => simp [OpOutcome.map]

theorem encodeDelta_decodeDelta_iff (tie : Tie) (c : DeltaCode) :
    encodeDelta tie (decodeDelta c) = .ok c ↔ c.d1.toNat = 31 ∧ c.d0.toNat ≠ 0 := by
  have hlt := c.d1.isLt
  refine Iff.trans (b := ReencodesTo tie (.delta c) (.delta c)) encodeDelta_eq_ok_iff ⟨?_, ?_⟩
  · intro h
    obtain h0 | hlow := c.canonical_iff.mp h.canonical
    · have hc : .delta c = saturatedForm .delta c.d1.toNat := congrArg Code.delta (DeltaCode.eq_of_toNat h0 (by simp))
      rw [hc] at h
      have hceil : c.d1.toNat = 31 := eq_maxDown_of_reencodesTo_self (by simp only [CoefKind.maxDown]; omega) h
      omega
    · exact hlow
  · rintro ⟨h1, h0⟩
    have hstep : stepExp (.delta c) = -46 := by simp only [stepExp]; omega
    exact reencodesTo_self_of_encodesTo tie (hstep ▸ encodesTo_delta_low h0 h1)

/-- Settles O38: what comes back is canonical and does not drift. -/
theorem reencodingFixedPoints : Obligations.ReencodingFixedPoints := by
  refine ⟨fun c => ?_, fun c => ?_, fun c => ?_, fun c => ?_, fun k hpos hk => ?_⟩
  · simpa [← BitVec.toNat_inj] using encodeAlpha_decodeAlpha_iff .even c
  · simpa [← BitVec.toNat_inj] using encodeBeta_decodeBeta_iff .even c
  · simpa [← BitVec.toNat_inj] using encodeGamma_decodeGamma_iff .even c
  · simpa [← BitVec.toNat_inj] using encodeDelta_decodeDelta_iff .even c
  · obtain ⟨j, rfl⟩ := Nat.exists_eq_add_of_le' hpos
    exact encodeAlpha_eq_ok_iff.mpr (upForm_drifts .even hk)

end Sys2Proof.Machine
end

section
/-! Decode after encode is non-decreasing in the magnitude of the operand (R95): a larger magnitude has no smaller a step, at an equal step
no smaller a mantissa, and at a larger step a normalised one. -/

namespace Sys2Proof.Machine

/-! The primitives keep order (R10, R12, R13). -/

theorem clamp_mono {v v' lo hi : Int} (h : lo ≤ hi) (hle : v ≤ v') : clamp v lo hi ≤ clamp v' lo hi := by
  rw [clamp_eq_min_max h, clamp_eq_min_max h]; omega

theorem IsRnd.mono {tie : Tie} {q q' : ℚ} {r r' : Nat} (h : IsRnd tie q r) (h' : IsRnd tie q' r') (hle : q ≤ q') : r ≤ r' := by
  by_contra hlt
  have hsucc : (r' : ℚ) + 1 ≤ r := by exact_mod_cast not_le.mp hlt
  have hr := (abs_le.mp h.1).2
  have hr' := (abs_le.mp h'.1).1
  obtain rfl : q = q' := hle.antisymm (by linarith)
  exact hlt (h.unique h').le

section Order

variable {q q' : Dyad} (h : 0 < q.sig) (h' : 0 < q'.sig) (hle : q.toRat ≤ q'.toRat)

include h h' hle

theorem nclog2_anti : nclog2 q' ≤ nclog2 q := (nclog2_spec h').le ((nclog2_spec h).1.trans hle)

theorem clog2_mono : clog2 q ≤ clog2 q' := (clog2_spec h).le (hle.trans (clog2_spec h').2)

theorem downExp_anti : downExp q' ≤ downExp q := clamp_mono (by norm_num) (nclog2_anti h h' hle)

theorem alphaDown_anti : alphaDown q' ≤ alphaDown q := by
  rcases lt_or_ge q'.toRat 1 with hq | hq
  · rw [alphaDown, alphaDown, if_pos ((belowOne_iff q').mpr hq), if_pos ((belowOne_iff q).mpr (hle.trans_lt hq))]
    exact clamp_mono (by norm_num) (nclog2_anti h h' hle)
  · rw [alphaDown_of_one_le hq]
    exact (alphaDown_bounds q).1

theorem alphaUp_mono : alphaUp q ≤ alphaUp q' := by
  rcases lt_or_ge 1 q.toRat with hq | hq
  · rw [alphaUp, alphaUp, if_pos ((aboveOne_iff q).mpr hq), if_pos ((aboveOne_iff q').mpr (hq.trans_le hle))]
    exact clamp_mono (by norm_num) (clog2_mono h h' hle)
  · rw [alphaUp_of_le_one hq]
    exact (alphaUp_bounds q').1

end Order

/-! Step and mantissa of an encoded magnitude (R66 to R69, R92). -/

/-- The exponent of the step with which a kind encodes a magnitude. -/
def encodingStep (q : Dyad) : CoefKind → Int
  | .alpha => -16 - alphaDown q + alphaUp q
  | .beta => -17 - downExp q
  | .gamma => -17 - downExp q
  | .delta => -15 - downExp q

theorem stepExp_encodedForm (tie : Tie) (q : Dyad) (k : CoefKind) : stepExp (encodedForm tie q k) = encodingStep q k := by
  cases k with
  | alpha =>
    obtain ⟨-, h1, h2, h3⟩ := alphaFields_spec tie q
    have hsum := splitUp_sum (alphaUp q)
    simp only [stepExp, encodedForm, encodingStep]; omega
  | beta => exact congrArg (-17 - ·) (betaFields_spec tie q).2
  | gamma => exact congrArg (-17 - ·) (betaFields_spec tie q).2
  | delta => exact congrArg (-15 - ·) (deltaFields_spec tie q).2

theorem mantissa_encodedForm (tie : Tie) (q : Dyad) (k : CoefKind) : (mantissa (encodedForm tie q k) : Int) =
    clamp (rnd tie (scale q (-encodingStep q k))) 1 ((2 ^ k.mantissaBits - 1 : Nat) : Int) := by
  cases k with
  | alpha =>
    rw [show -encodingStep q .alpha = 16 + alphaDown q - alphaUp q by simp only [encodingStep]; ring]
    exact (alphaFields_spec tie q).1
  | beta =>
    rw [show -encodingStep q .beta = 17 + downExp q by simp only [encodingStep]; ring]
    exact (betaFields_spec tie q).1
  | gamma =>
    rw [show -encodingStep q .gamma = 17 + downExp q by simp only [encodingStep]; ring]
    exact (betaFields_spec tie q).1
  | delta =>
    rw [show -encodingStep q .delta = 15 + downExp q by simp only [encodingStep]; ring]
    exact (deltaFields_spec tie q).1

theorem encodingStep_mono {q q' : Dyad} (h : 0 < q.sig) (h' : 0 < q'.sig) (hle : q.toRat ≤ q'.toRat) (k : CoefKind) :
    encodingStep q k ≤ encodingStep q' k := by
  have hdown := downExp_anti h h' hle
  have halphaDown := alphaDown_anti h h' hle
  have halphaUp := alphaUp_mono h h' hle
  cases k <;> simp only [encodingStep] <;> omega

/-! Values (R95). -/

/-- A normalised mantissa at a larger exponent has the larger value. -/
theorem Normalised.mul_le_of_lt {b m m' : Nat} {lo e e' : Int} (h : Normalised b lo m e) (h' : Normalised b lo m' e')
    (hlt : e < e') : (m : ℚ) * 2 ^ e ≤ m' * 2 ^ e' := by
  obtain ⟨hm, hlo, -⟩ := h
  obtain ⟨-, -, hnorm⟩ := h'
  have hlead : 2 ^ b ≤ m' := hnorm.resolve_left (by omega)
  calc (m : ℚ) * 2 ^ e ≤ ((2 ^ (b + 1) : Nat) : ℚ) * 2 ^ e :=
        mul_le_mul_of_nonneg_right (Nat.cast_le.mpr hm.le) (two_zpow_pos e).le
    _ = ((2 ^ b : Nat) : ℚ) * 2 ^ (e + 1) := by rw [natCast_two_pow_mul, natCast_two_pow_mul]; congr 1; push_cast; ring
    _ ≤ ((2 ^ b : Nat) : ℚ) * 2 ^ e' := mul_le_mul_of_nonneg_left (two_zpow_le.mpr hlt) (Nat.cast_nonneg _)
    _ ≤ m' * 2 ^ e' := mul_le_mul_of_nonneg_right (Nat.cast_le.mpr hlead) (two_zpow_pos e').le

theorem decodedValue_le_of_stepExp_lt {c d : Code} (hkind : c.kind = d.kind) (hc : c.canonical = true)
    (hd : d.canonical = true) (hlt : stepExp c < stepExp d) : decodedValue c ≤ decodedValue d := by
  match c, d, hkind with
  | .alpha c, .alpha d, _ => exact (normalised_of_canonical_alpha hc).mul_le_of_lt (normalised_of_canonical_alpha hd) hlt
  | .beta c, .beta d, _ => exact (normalised_of_canonical_beta hc).mul_le_of_lt (normalised_of_canonical_beta hd) hlt
  | .gamma c, .gamma d, _ =>
    exact (normalised_of_canonical_beta (c := ⟨c.g0, c.g1⟩) hc).mul_le_of_lt
      (normalised_of_canonical_beta (c := ⟨d.g0, d.g1⟩) hd) hlt
  | .delta c, .delta d, _ => exact (normalised_of_canonical_delta hc).mul_le_of_lt (normalised_of_canonical_delta hd) hlt

theorem mantissa_encodedForm_mono (tie : Tie) {q q' : Dyad} (hle : q.toRat ≤ q'.toRat) {k : CoefKind}
    (hstep : encodingStep q k = encodingStep q' k) :
    mantissa (encodedForm tie q k) ≤ mantissa (encodedForm tie q' k) := by
  have hrnd : rnd tie (scale q (-encodingStep q k)) ≤ rnd tie (scale q' (-encodingStep q k)) :=
    (rnd_scale tie q _).mono (rnd_scale tie q' _) (mul_le_mul_of_nonneg_right hle (two_zpow_pos _).le)
  have hbits := two_le_two_pow_mantissaBits k
  rw [← Nat.cast_le (α := Int), mantissa_encodedForm, mantissa_encodedForm, ← hstep]
  exact clamp_mono (by omega) (by exact_mod_cast hrnd)

theorem decodedValue_encodedForm_mono (tie : Tie) {q q' : Dyad} (h : 0 < q.sig) (h' : 0 < q'.sig)
    (hle : q.toRat ≤ q'.toRat) (k : CoefKind) :
    decodedValue (encodedForm tie q k) ≤ decodedValue (encodedForm tie q' k) := by
  rcases (encodingStep_mono h h' hle k).lt_or_eq with hlt | heq
  · refine decodedValue_le_of_stepExp_lt ?_ (encodedForm_canonical tie h k) (encodedForm_canonical tie h' k) ?_
    · rw [kind_encodedForm, kind_encodedForm]
    · rwa [stepExp_encodedForm, stepExp_encodedForm]
  · rw [decodedValue, decodedValue, stepExp_encodedForm, stepExp_encodedForm, ← heq]
    exact mul_le_mul_of_nonneg_right (Nat.cast_le.mpr (mantissa_encodedForm_mono tie hle heq)) (two_zpow_pos _).le

/-- For every kind, what two encode results decode to is ordered as the operands' magnitudes are. -/
theorem decodedValue_mono_of_encodeCode {tie : Tie} {k : CoefKind} {x x' : Real64} {v v' : ℚ} {c c' : Code}
    (hv : val64 x = some v) (hv' : val64 x' = some v') (hle : |v| ≤ |v'|) (hc : encodeCode tie k x = .ok c)
    (hc' : encodeCode tie k x' = .ok c') : decodedValue c ≤ decodedValue c' := by
  obtain ⟨q, hfront, rfl⟩ := encodeCode_eq_ok_iff.mp hc
  obtain ⟨q', hfront', rfl⟩ := encodeCode_eq_ok_iff.mp hc'
  obtain ⟨hfinite, -, rfl, hsig⟩ := front_ok hfront
  obtain ⟨hfinite', -, rfl, hsig'⟩ := front_ok hfront'
  rw [abs_val64 hfinite hv, abs_val64 hfinite' hv'] at hle
  exact decodedValue_encodedForm_mono tie hsig hsig' hle k

/-- Settles O40: `decodedValue_mono_of_encodeCode` at each kind. -/
theorem roundTripIsMonotone : Obligations.RoundTripIsMonotone := by
  refine fun tie x x' v v' hv hv' _ hle => ⟨fun c c' hc hc' => ?_, fun c c' hc hc' => ?_, fun c c' hc hc' => ?_, fun c c' hc hc' => ?_⟩
  · exact ⟨_, _, val64_decodedPattern (.alpha c), val64_decodedPattern (.alpha c'),
      decodedValue_mono_of_encodeCode hv hv' hle (encodeAlpha_eq_ok_iff.mp hc) (encodeAlpha_eq_ok_iff.mp hc')⟩
  · exact ⟨_, _, val64_decodedPattern (.beta c), val64_decodedPattern (.beta c'),
      decodedValue_mono_of_encodeCode hv hv' hle (encodeBeta_eq_ok_iff.mp hc) (encodeBeta_eq_ok_iff.mp hc')⟩
  · exact ⟨_, _, val64_decodedPattern (.gamma c), val64_decodedPattern (.gamma c'),
      decodedValue_mono_of_encodeCode hv hv' hle (encodeGamma_eq_ok_iff.mp hc) (encodeGamma_eq_ok_iff.mp hc')⟩
  · exact ⟨_, _, val64_decodedPattern (.delta c), val64_decodedPattern (.delta c'),
      decodedValue_mono_of_encodeCode hv hv' hle (encodeDelta_eq_ok_iff.mp hc) (encodeDelta_eq_ok_iff.mp hc')⟩

end Sys2Proof.Machine
end

section
/-! Exceptions at the host: nothing happens between requests (R104), a failed request leaves no trace (R106, R108), and a coefficient
that the host does not write stays as it was (R107). -/

namespace Sys2Proof.Machine

/-! No line left (R104). -/

/-- Settles O8: `step_idle`. -/
theorem nothingHappensBetweenRequests : Obligations.NothingHappensBetweenRequests :=
  fun _ => step_idle

/-! A rejected operand (R102, R106). -/

theorem response_of_front_invalidInput {k : CoefKind} {x : Real64} (h : front k x = .invalidInput) :
    response (k.encodeInstr x) = .invalidInput := by
  rw [response_encodeInstr, h]; rfl

theorem run_one_request {s : State} {q : Request} {rest : List HostAction} (h : s.pending = .request q :: rest) :
    core.run 1 s = .next { s with pending := rest, outcomes := s.outcomes ++ [response (decode q)] } := by
  rw [run_succ_next 0 (step_request h), run_zero, nextLine_eq h]
  rfl

/-- Settles O12: the response to the second request is a function of its word, whether the failed one was made or not. -/
theorem failedRequestLeavesNoTrace : Obligations.FailedRequestLeavesNoTrace := by
  refine fun k x q hfront => ⟨response (decode q), fun s rest => ⟨fun h => ?_, run_one_request⟩⟩
  rw [run_two_requests h, decode_encode, response_of_front_invalidInput hfront]

/-! A coefficient the host does not write (R107). -/

/-- The device has the coefficient kept at the addresses `batch` as the memory `before` has it, none of its bytes is received, and
the rest of the host's program writes none. -/
def LeftAlone (batch : List Addr) (before : Memory) (s : State) : Prop :=
  s.inv = true ∧ writesNone batch s.pending = true ∧ NoneReceived batch s.transport.received ∧
  ∀ a ∈ batch, Memory.read s.transport.applied a.toNat = Memory.read before a.toNat

theorem writesNone_tail {batch : List Addr} {program : List HostAction} (h : writesNone batch program = true) :
    writesNone batch program.tail = true := by
  cases program with
  | nil => rfl
  | cons a rest => exact ((Bool.and_eq_true _ _).mp h).2

theorem notMem_of_writesNone {batch : List Addr} {a : Addr} {b : Byte} {rest : List HostAction}
    (h : writesNone batch (.writeByte a b :: rest) = true) : a ∉ batch := by
  simp only [writesNone, List.all_cons, Bool.and_eq_true, Bool.not_eq_true', ← Bool.not_eq_true,
    List.contains_iff_mem] at h
  exact h.1

/-- A commit leaves the applied byte of an address where none is received. -/
theorem read_ioUpdate_applied {s : State} (hs : s.inv = true) {a : Addr}
    (ha : Memory.read s.transport.received a.toNat = none) :
    Memory.read s.ioUpdate.transport.applied a.toNat = Memory.read s.transport.applied a.toNat := by
  obtain ⟨hreceived, happlied, -⟩ := (inv_iff s).mp hs
  rw [ioUpdate_applied, Memory.read_overlay _ ((Memory.wf_iff _).mp happlied).1 ((Memory.wf_iff _).mp hreceived).1, ha,
    Option.none_or]

theorem LeftAlone.step {batch : List Addr} {before : Memory} {s t : State} (hs : LeftAlone batch before s)
    (h : step s = .next t) : LeftAlone batch before t := by
  obtain ⟨hinv, hduty, hnone, hsame⟩ := hs
  refine ⟨stepKeepsTheInvariant s t hinv h, step_pending h ▸ writesNone_tail hduty, ?_⟩
  obtain ⟨-, rfl⟩ | ⟨i, -, -, -, -, rfl⟩ | ⟨a, b, rest, hp, rfl⟩ | ⟨a, -, -, rfl⟩ | ⟨-, -, rfl⟩ := step_next h
  · exact ⟨hnone, hsame⟩
  · exact ⟨hnone, hsame⟩
  · obtain ⟨hreceived, -⟩ := (inv_iff s).mp hinv
    have ha : a ∉ batch := notMem_of_writesNone (hp ▸ hduty)
    exact ⟨hnone.write_of_notMem ((Memory.wf_iff _).mp hreceived).1 b ha, hsame⟩
  · exact ⟨hnone, hsame⟩
  · exact ⟨fun _ _ => rfl, fun a ha => (read_ioUpdate_applied (s := s.nextLine) hinv (hnone a ha)).trans (hsame a ha)⟩

/-- Settles O50: `LeftAlone` holds at the start and every step keeps it. -/
theorem nothingWrittenMeansNothingChanged : Obligations.NothingWrittenMeansNothingChanged := by
  intro batch s t k hduty hinv hnone h a ha
  have hstart : LeftAlone batch s.transport.applied s := ⟨hinv, hduty, hnone, fun _ _ => rfl⟩
  obtain ⟨-, -, hnone', hsame⟩ := run_keeps (fun _ _ => LeftAlone.step) hstart h
  exact ⟨hsame a ha, hnone' a ha⟩

end Sys2Proof.Machine
end
